-- ==== Sys2Proof/Word.lean ====
section
/-! DEFINITION. The word types of the block (00_scope.md R7, R8): bytes, 32-bit registers, six-bit symbol
indices and the 24-bit group value of the codec. Counts, lengths and offsets are plain `Nat` (R7: no
arithmetic of the spec wraps). -/

namespace Sys2Proof

/-- One byte (R7). -/
abbrev Byte := BitVec 8

/-- A 32-bit register, the command word among them (R21, R22, R90). -/
abbrev Word := BitVec 32

/-- A six-bit index into the data symbols of an alphabet table (R96, R115). -/
abbrev SymIndex := BitVec 6

/-- The 24-bit value that three bytes, or four six-bit indices, are packed into (R115, R149). -/
abbrev Group := BitVec 24

/-- The 16 raw salt bytes (R6 SALT_LEN). -/
abbrev Salt := Vector Byte 16

/-- The 24-byte working buffer CT (R6 CT_LEN, R37). -/
abbrev Block24 := Vector Byte 24

end Sys2Proof
end

