-- ==== Sys2Proof/Config.lean ====
section
/-! DEFINITION. What one instance of the block fixes: the parameters of 00_scope.md R5 at the defaults the
rule gives, the constants of R6, the free values (values the spec leaves unspecified: no body, so nothing
can be proved of them), and the cipher capability of 43_external_capabilities.md R224, whose functions and answers are parameters of the
step, as R15 says. -/

namespace Sys2Proof.Config

/-! ### Parameters (R5), at their defaults (log entry 3) -/

/-- BASE: host address of the register window, a multiple of 0x4000 (R5). -/
def base : Nat := 0
/-- Bytes in the host-addressable window REG (R60). -/
def windowSize : Nat := 0x4000
/-- IBUF_SIZE (R5). -/
def ibufSize : Nat := 4096
/-- OBUF_SIZE (R5). -/
def obufSize : Nat := 4096
/-- PW_MAX (R5). -/
def pwMax : Nat := 256
/-- VERSION, the character '2' (R5, R100). -/
def version : Byte := 0x32
/-- COST_MAX (R5). -/
def costMax : Nat := 99

/-! ### Constants (R6) -/

def tblLen : Nat := 65
def minCost : Nat := 4
def hashRounds : Nat := 64
def saltLen : Nat := 16
def saltSyms : Nat := 22
def ctLen : Nat := 24
def digestLen : Nat := 23
def digestSyms : Nat := 31
/-- Bytes in RIN and in ROUT (R33). -/
def recordMax : Nat := 64

/-- The constraints R5 puts on the parameters. -/
def wf : Bool :=
  base % 0x4000 == 0 && (1 ≤ ibufSize && ibufSize ≤ 4096) && (1 ≤ obufSize && obufSize ≤ 4096) &&
  (1 ≤ pwMax && pwMax ≤ 256) && (minCost ≤ costMax && costMax ≤ 99)

/-! ### Free values (93_implementation_defined.md U2 to U5, U7 to U9) -/

/-- The byte an unspecified buffer byte holds: a function of the epoch (which event made the byte
unspecified) and of the byte's offset in the window (R38, R40, R246; U2, U5; log entry 4). -/
opaque freeByte : Nat → Nat → Byte

/-- The value of one unspecified host read, a fresh one for each draw (R73, R74; U3, U4; log entry 6). -/
opaque freeWord : Nat → Word

/-- What the two capabilities answer to each of the block's calls, as a code (R15, R16: parameters of the step,
not state; R227, R228, R290; U7, U8, U9; log entry 7): an unknown permutation of the numbers of calls. Nothing can
be proved of the code at a number; that it is a permutation says only that every code stands at some number, so
that a claim over every state is a claim over every answer. -/
opaque callNumbering : Equiv.Perm Nat

end Sys2Proof.Config

namespace Sys2Proof

/-- The cipher capability: three total deterministic functions over a state type, and the blank state
S0 (R220 to R224). A record of functions, so that the pure functions of AHF hold for every cipher. -/
structure Cipher (σ : Type) where
  /-- S0, the blank state (R222). -/
  s0 : σ
  /-- InitializeKeySchedule(state, salt) (R221): part of the interface, called by no command. -/
  initializeKeySchedule : σ → Salt → σ
  /-- ExpensiveKeySchedule(state, salt, saltLen, key, keyLen, rounds) (R222). -/
  expensiveKeySchedule : σ → List Byte → Nat → List Byte → Nat → Nat → σ
  /-- EncryptBlockChain(state, buffer, length) (R223): answers a buffer and no state. -/
  encryptBlockChain : σ → Block24 → Nat → Block24

/-- The cipher's own state, held as a byte string of any length (R224 gives an opaque type; log entry 8). -/
structure CState where
  image : List Byte
deriving DecidableEq, Repr, Inhabited

namespace Config

/-- S0 of the cipher the platform connects (U10: a parameter, unconstrained). -/
opaque cipherS0 : CState
/-- InitializeKeySchedule of the connected cipher (U10). -/
opaque cipherInitialize : CState → Salt → CState
/-- ExpensiveKeySchedule of the connected cipher (U10). -/
opaque cipherExpensive : CState → List Byte → Nat → List Byte → Nat → Nat → CState
/-- EncryptBlockChain of the connected cipher (U10). -/
opaque cipherEncrypt : CState → Block24 → Nat → Block24

/-- The cipher the platform connects: nothing is known of its functions (R224, R220). -/
def cipher : Cipher CState where
  s0 := cipherS0
  initializeKeySchedule := cipherInitialize
  expensiveKeySchedule := cipherExpensive
  encryptBlockChain := cipherEncrypt

end Config
end Sys2Proof
end

