-- ==== Sys2Proof/Syntax.lean ====
section
/-! DEFINITION. The instructions of the block: its commands, one constructor per row of
spec/opcode_table.json (30_encoding.md R91). A command word carries no operand (R92), so no constructor
has an argument: every operand is read from a fixed register or buffer by the meaning. -/

namespace Sys2Proof

/-- The seven command words (R91). -/
inductive Instr where
  /-- ENCODE.D: encode IBUF with the default table DTBL (R125, TSEL = 0). -/
  | encodeD
  /-- ENCODE.A: encode IBUF with the host table TBL (R125, TSEL = 1). -/
  | encodeA
  /-- DECODE.D: decode the text in IBUF with the default table DTBL (R157, TSEL = 0). -/
  | decodeD
  /-- DECODE.A: decode the text in IBUF with the host table TBL (R157, TSEL = 1). -/
  | decodeA
  /-- GENSALT: draw a salt and write a salt record to ROUT (R177). -/
  | genSalt
  /-- HASH: hash PWBUF under the salt record in RIN, hash record to ROUT (R196). -/
  | hash
  /-- VERIFY: hash PWBUF under the hash record in RIN and compare digests (R205). -/
  | verify
deriving DecidableEq, Repr

end Sys2Proof
end

