-- ==== Sys2Proof/WellFormed.lean ====
section
/-! DEFINITION. Well-formedness of commands and of command words. A command of `Instr` has no field that
could be ill-formed (R92, R95); what can be ill-formed is the 32-bit word a host writes, and the three
ways R94 names are checked one by one. -/

namespace Sys2Proof

/-- Every command of `Instr` is well-formed: it has no operand field (R92). -/
def Instr.wf : Instr → Bool
  | .encodeD => true
  | .encodeA => true
  | .decodeD => true
  | .decodeA => true
  | .genSalt => true
  | .hash => true
  | .verify => true

namespace CommandWord

/-- R94: bits 31:4 are zero. -/
def zeroFieldClear (w : Word) : Bool := w.extractLsb' 4 28 == 0

/-- R91, R94: OP is one of 1 to 5 (0, 6 and 7 are reserved). -/
def opListed (w : Word) : Bool :=
  1 ≤ (w.extractLsb' 0 3).toNat && (w.extractLsb' 0 3).toNat ≤ 5

/-- R90, R94: TSEL is 0 unless OP is ENCODE (1) or DECODE (2). -/
def tselAllowed (w : Word) : Bool :=
  !w.getLsbD 3 || (w.extractLsb' 0 3).toNat == 1 || (w.extractLsb' 0 3).toNat == 2

/-- A word that names a command (R91, R94). -/
def wf (w : Word) : Bool := zeroFieldClear w && opListed w && tselAllowed w

end CommandWord
end Sys2Proof
end

