-- ==== Sys2Proof/Decode.lean ====
section
/-! DEFINITION. Decoding a command word (30_encoding.md R90, R91, R94, R95), total on every word and every
list of bytes, rejecting by name; then the encoder, written from the same table. -/

namespace Sys2Proof

/-- Why a word names no command (R94), or why a byte list is no command word. -/
inductive DecodeError where
  /-- A bit of 31:4 is set. -/
  | zeroFieldSet
  /-- OP is 0, 6 or 7. -/
  | reservedOp
  /-- TSEL = 1 with GENSALT, HASH or VERIFY. -/
  | tselNotAllowed
  /-- The byte list is not one 32-bit word (R95: one word, one length). -/
  | notOneWord
deriving DecidableEq, Repr

/-- OP, bits 2:0 (R90). -/
def opField (w : Word) : BitVec 3 := w.extractLsb' 0 3
/-- TSEL, bit 3 (R90). -/
def tselField (w : Word) : Bool := w.getLsbD 3
/-- ZERO, bits 31:4 (R90). -/
def zeroField (w : Word) : BitVec 28 := w.extractLsb' 4 28

/-- The command named by OP and TSEL when bits 31:4 are zero (R91). -/
def decodeFields (op : Nat) (tsel : Bool) : Except DecodeError Instr :=
  match op, tsel with
  | 1, false => .ok .encodeD
  | 1, true => .ok .encodeA
  | 2, false => .ok .decodeD
  | 2, true => .ok .decodeA
  | 3, false => .ok .genSalt
  | 4, false => .ok .hash
  | 5, false => .ok .verify
  | 3, true => .error .tselNotAllowed
  | 4, true => .error .tselNotAllowed
  | 5, true => .error .tselNotAllowed
  | _, _ => .error .reservedOp

/-- Decode one command word (R91, R94). -/
def decode (w : Word) : Except DecodeError Instr :=
  if zeroField w = 0 then decodeFields (opField w).toNat (tselField w) else .error .zeroFieldSet

/-- The word four bytes form, bits 7:0 at the lowest offset (R63 (c)). -/
def wordOfBytes (b0 b1 b2 b3 : Byte) : Word := b3 ++ b2 ++ b1 ++ b0

/-- The four bytes of a word, lowest offset first (R63 (c)). -/
def bytesOfWord (w : Word) : List Byte :=
  [w.extractLsb' 0 8, w.extractLsb' 8 8, w.extractLsb' 16 8, w.extractLsb' 24 8]

/-- Decode the bytes of a command word as REG space orders them; exactly four bytes are one word. -/
def decodeBytes : List Byte → Except DecodeError Instr
  | [b0, b1, b2, b3] => decode (wordOfBytes b0 b1 b2 b3)
  | _ => .error .notOneWord

/-- The word with the given OP and TSEL and bits 31:4 zero (R90). -/
def commandWord (op : BitVec 3) (tsel : BitVec 1) : Word := (0 : BitVec 28) ++ tsel ++ op

/-- The command word of a command (R91). -/
def encode : Instr → Word
  | .encodeD => commandWord 1 0
  | .encodeA => commandWord 1 1
  | .decodeD => commandWord 2 0
  | .decodeA => commandWord 2 1
  | .genSalt => commandWord 3 0
  | .hash => commandWord 4 0
  | .verify => commandWord 5 0

/-- What the decoder reads from a word numbered as spec/opcode_table.json numbers it (bit 0 least
significant; every bit at or above nbits is zero). A number wider than 32 bits is no command word. -/
def decodeTableWord (nbits w : Nat) : Option Instr :=
  if w % 2 ^ nbits < 2 ^ 32 then
    (decodeBytes (bytesOfWord (BitVec.ofNat 32 (w % 2 ^ nbits)))).toOption
  else none

end Sys2Proof
end

