-- ==== Sys2Proof/Machine/State.lean ====
section
/-! DEFINITION. The state of the block (10_state.md R20 to R40), its reset value (R38), and the reasons a
step can stop. Plain data. The fields from `obufEpoch` on are the model's own: they carry the numbers of the
free values, and what the world outside does (INVENTORY.md, log entries 1, 4, 6, 7). -/

namespace Sys2Proof.Machine

/-- SEQ, the sequencer state, visible as STATUS.STATE (R24). -/
inductive Seq where
  | idle
  | busy
  | done
  | halted
deriving DecidableEq, Repr

/-- STATUS.ERR (R23, R240). Codes 5, 6, 7 are never produced, so they are no constructor. -/
inductive Err where
  | ok
  | capacity
  | format
  | environment
  | illegal
deriving DecidableEq, Repr

/-- The eight registers of the window (R20, R61). -/
inductive Reg where
  | cmd
  | status
  | ilen
  | ocap
  | olen
  | cost
  | pwlen
  | rlen
deriving DecidableEq, Repr

/-- The six byte buffers of the window (R20, R61). -/
inductive Buf where
  | tbl
  | rin
  | rout
  | pwbuf
  | ibuf
  | obuf
deriving DecidableEq, Repr

/-- The buffers a command writes its result to (R32, R33). -/
inductive OutBuf where
  | obuf
  | rout
deriving DecidableEq, Repr

/-- What one draw from the randomness source answers (R227): bytes, Unavailable, or nothing ever (R290). -/
inductive DrawAnswer where
  | bytes (salt : Salt)
  | unavailable
  | never
deriving DecidableEq, Repr

/-- One thing the world outside does to the block (R12, R15, R270). Addresses are host addresses. -/
inductive Action where
  /-- MemRead(addr, width). -/
  | read (addr width : Nat)
  /-- MemWrite(addr, width, value); a one-byte write stores bits 7:0 of value. -/
  | write (addr width : Nat) (value : Word)
  /-- rst is asserted and released (R270). -/
  | reset
deriving DecidableEq, Repr

/-- One pending action and where it lands: with `whileBusy` it takes effect even while a command is
running; without, it waits until the running command has ended (a host that polls STATUS first, R281). -/
structure Event where
  whileBusy : Bool
  action : Action
deriving DecidableEq, Repr

/-- The buffer bytes of the window whose value is known: (offset from BASE, byte) pairs, offsets strictly
rising. An unlisted offset holds an unspecified byte (R38, R40). -/
abbrev Memory := List Host.Cell

/-- The state of the block. -/
structure State where
  /-- SEQ (R24); STATUS.STATE is a copy of it. -/
  seq : Seq
  /-- CMD (R22). -/
  cmd : Word
  /-- STATUS.ERR (R23, R26). -/
  err : Err
  /-- STATUS.MATCH (R23, R26). -/
  matchFlag : Bool
  /-- ILEN (R21). -/
  ilen : Word
  /-- OCAP (R21). -/
  ocap : Word
  /-- OLEN (R25). -/
  olen : Word
  /-- COST (R21). -/
  cost : Word
  /-- PWLEN (R21). -/
  pwlen : Word
  /-- RLEN (R21). -/
  rlen : Word
  /-- TBL, RIN, ROUT, PWBUF, IBUF, OBUF (R27, R31 to R33), by offset in the window (R61). -/
  mem : Memory
  /-- The model's own: the draw that made the unlisted bytes of OBUF unspecified. -/
  obufEpoch : Nat
  /-- The model's own: the draw that made the unlisted bytes of ROUT unspecified. -/
  routEpoch : Nat
  /-- The model's own: the draw (the last reset) that made the unlisted bytes of the other buffers unspecified. -/
  resetEpoch : Nat
  /-- The model's own: how many free values have been drawn. -/
  draws : Nat
  /-- The model's own: how many calls on the two capabilities are over. It numbers the next answer, which is
  no part of the state (R15, R16). -/
  calls : Nat
  /-- The model's own: what the outside world does next, oldest first. -/
  pending : List Event
  /-- The model's own: the value the host's last read returned. -/
  readData : Word
deriving DecidableEq, Repr

/-- The state after reset (R38): SEQ = IDLE, ERR = 0, MATCH = 0, every register zero, no buffer byte known.
The model's own fields: nothing drawn, no call made, nothing pending (log entry 13). -/
def State.reset : State where
  seq := .idle
  cmd := 0
  err := .ok
  matchFlag := false
  ilen := 0
  ocap := 0
  olen := 0
  cost := 0
  pwlen := 0
  rlen := 0
  mem := []
  obufEpoch := 0
  routEpoch := 0
  resetEpoch := 0
  draws := 1
  calls := 0
  pending := []
  readData := 0

/-- Why the machine stops with a fault. -/
inductive Fault where
  /-- Raised by `step` when SEQ = HALTED and nothing is pending: the run ends halted, and R249 counts that
  as a fault that refutes normal completion (U8). Safe: no claim of completion can pass through it. -/
  | environmentHalt
deriving DecidableEq, Repr

/-- Why the model gives a request no meaning. -/
inductive Refusal where
  /-- Raised by `exec` for a command that has no meaning yet. Safe. -/
  | notModelled (mnemonic : String)
  /-- Raised by ENCODE.A and DECODE.A when TBL is not well-formed or not fully written since reset: R34,
  R284 and U1 say the model refuses the command. Safe. -/
  | illFormedTable
  /-- Raised by a host access to an offset that no register or buffer has (R62, U6), or outside the
  window (R61 leaves it to the platform). Safe. -/
  | unmappedAccess
  /-- Raised by a host access of a width or alignment that R64 and R65 do not allow (R62, U6). Safe. -/
  | badAccess
deriving DecidableEq, Repr

/-- What a meaning and a step answer. -/
abbrev Outcome := Host.Outcome State Fault Refusal

end Sys2Proof.Machine
end

