-- ==== Sys2Proof/Machine/Ops.lean ====
section
/-! DEFINITION. The named operations over memory and registers: the address map (20_memory.md R61), reading
and writing buffer bytes, making an output buffer unspecified (60_exceptions.md R246), accepting a command
(30_encoding.md R90), raising an error (R245), the halt (R249), completion (R250) and reset (R270). -/

namespace Sys2Proof.Machine

/-! ### The address map (R61) -/

/-- A register's offset in the window. -/
def Reg.offset : Reg → Nat
  | .cmd => 0x0000
  | .status => 0x0004
  | .ilen => 0x0008
  | .ocap => 0x000C
  | .olen => 0x0010
  | .cost => 0x0014
  | .pwlen => 0x0018
  | .rlen => 0x001C

/-- The register at an offset of the window, if one starts there. -/
def Reg.atOffset : Nat → Option Reg
  | 0x0000 => some .cmd
  | 0x0004 => some .status
  | 0x0008 => some .ilen
  | 0x000C => some .ocap
  | 0x0010 => some .olen
  | 0x0014 => some .cost
  | 0x0018 => some .pwlen
  | 0x001C => some .rlen
  | _ => none

/-- The offset after the last register (R61, R64). -/
abbrev regEnd : Nat := 0x0020

/-- A buffer's first offset in the window. -/
def Buf.base : Buf → Nat
  | .tbl => 0x0040
  | .rin => 0x00C0
  | .rout => 0x0100
  | .pwbuf => 0x0200
  | .ibuf => 0x1000
  | .obuf => 0x2000

/-- A buffer's size in bytes. -/
def Buf.size : Buf → Nat
  | .tbl => Config.tblLen
  | .rin => Config.recordMax
  | .rout => Config.recordMax
  | .pwbuf => Config.pwMax
  | .ibuf => Config.ibufSize
  | .obuf => Config.obufSize

/-- The offset lies in the buffer. -/
def Buf.has (b : Buf) (off : Nat) : Bool := b.base ≤ off && off < b.base + b.size

/-- The buffer an offset lies in, if any (R61). -/
def bufAt (off : Nat) : Option Buf :=
  if Buf.tbl.has off then some .tbl
  else if Buf.rin.has off then some .rin
  else if Buf.rout.has off then some .rout
  else if Buf.pwbuf.has off then some .pwbuf
  else if Buf.ibuf.has off then some .ibuf
  else if Buf.obuf.has off then some .obuf
  else none

/-- The buffer an output buffer is. -/
def OutBuf.buf : OutBuf → Buf
  | .obuf => .obuf
  | .rout => .rout

/-! ### Memory: a list of known bytes, offsets strictly rising -/

/-- The canonical form: offsets strictly rising, every one inside a buffer. (An unlisted byte is
unspecified, not a value, so no entry can equal it.) -/
abbrev Memory.wf (m : Memory) : Prop :=
  m.Pairwise (fun c d => c.1 < d.1) ∧ ∀ c ∈ m, (bufAt c.1).isSome

/-- The known byte at an offset, if it is known. -/
def Memory.find (m : Memory) (off : Nat) : Option Byte :=
  match m with
  | [] => none
  | c :: rest => if c.1 = off then some c.2 else Memory.find rest off

/-- Make the byte at an offset known. -/
def Memory.write (m : Memory) (off : Nat) (v : Byte) : Memory :=
  match m with
  | [] => [(off, v)]
  | c :: rest =>
    if off < c.1 then (off, v) :: c :: rest
    else if off = c.1 then (off, v) :: rest
    else c :: Memory.write rest off v

/-- Write consecutive bytes, the first at the lowest offset (R63 (b)). -/
def Memory.writeAll (m : Memory) (off : Nat) (bytes : List Byte) : Memory :=
  match bytes with
  | [] => m
  | b :: rest => Memory.writeAll (Memory.write m off b) (off + 1) rest

/-- Make every byte of a buffer unspecified. -/
def Memory.forget (m : Memory) (b : Buf) : Memory := m.filter (fun c => !b.has c.1)

namespace State

/-- The draw that made the unlisted byte at an offset unspecified. -/
def epochAt (s : State) (off : Nat) : Nat :=
  if Buf.obuf.has off then s.obufEpoch
  else if Buf.rout.has off then s.routEpoch
  else s.resetEpoch

/-- The byte the buffer location at an offset holds: the known one, else an unspecified one (R38, R40). -/
def byteAt (s : State) (off : Nat) : Byte :=
  (Memory.find s.mem off).getD (Config.freeByte (s.epochAt off) off)

/-- Store consecutive bytes from an offset on. -/
def storeBytes (off : Nat) (bytes : List Byte) (s : State) : State :=
  { s with mem := Memory.writeAll s.mem off bytes }

/-- Make the bytes of an output buffer unspecified: any value, a fresh one for each draw (R246). -/
def unspecify (b : OutBuf) (s : State) : State :=
  match b with
  | .obuf => { s with mem := Memory.forget s.mem .obuf, obufEpoch := s.draws, draws := s.draws + 1 }
  | .rout => { s with mem := Memory.forget s.mem .rout, routEpoch := s.draws, draws := s.draws + 1 }

/-! ### The life of a command -/

/-- What an accepted CMD write does before the command executes (R90). -/
def accept (w : Word) (s : State) : State :=
  { s with cmd := w, err := .ok, matchFlag := false, olen := 0, seq := .busy }

/-- `raise e` for an error other than EnvironmentError (R245): the command ends, the code is reported,
MATCH and OLEN stay as acceptance left them. -/
def raiseError (e : Err) (s : State) : State := { s with err := e, seq := .done }

/-- `raise EnvironmentError` (R249): the block halts. -/
def haltEnvironment (s : State) : State := { s with err := .environment, seq := .halted }

/-- Completion of a command that raises nothing (R250): the count, ERR = 0, SEQ = DONE. -/
def complete (count : Nat) (s : State) : State :=
  { s with olen := BitVec.ofNat 32 count, err := .ok, seq := .done }

/-- A listed command fails: its output buffer is unspecified and the error is raised (R245, R246). -/
def failWith (b : OutBuf) (e : Err) (s : State) : State := raiseError e (unspecify b s)

/-- What the platform asserts with `rst` (R270, R272, R38): every register and buffer as after reset, all
unlisted bytes fresh, and a call under way abandoned. What stands outside the block (pending actions, the last
value the host read) is not reset (log entry 13). -/
def applyReset (s : State) : State :=
  { reset with
    obufEpoch := s.draws, routEpoch := s.draws, resetEpoch := s.draws, draws := s.draws + 1,
    calls := s.calls + 1, pending := s.pending, readData := s.readData }

end State

/-- The bytes of an output area of `cap` bytes: the result, then zeros (R118, R152, R176). -/
def zeroFill (cap : Nat) (bytes : List Byte) : List Byte :=
  bytes ++ List.replicate (cap - bytes.length) 0

/-- Write a result to the first `cap` bytes of an output buffer, zero-filled (R118, R152, R176, R195). -/
def State.storeResult (b : OutBuf) (cap : Nat) (bytes : List Byte) (s : State) : State :=
  s.storeBytes b.buf.base (zeroFill cap bytes)

end Sys2Proof.Machine
end

