-- ==== Sys2Proof/Machine/Tables.lean ====
section
/-! DEFINITION. The alphabet tables: DTBL, BTBL and MAGIC (10_state.md R28, R29, R30), well-formedness (R34)
and the inverse table (R35). -/

namespace Sys2Proof.Machine

/-- An alphabet table: 65 bytes, data symbols at 0 to 63, the pad symbol at 64 (R96). -/
abbrev Table := List Byte

/-- The `n` consecutive codes from `c` on (R28, R29: the ranges `A-Z`, `a-z`, `0-9`). -/
def codeRange (c : Byte) (n : Nat) : List Byte :=
  match n with
  | 0 => []
  | k + 1 => c :: codeRange (c + 1) k

/-- DTBL (R28): `A-Z`, `a-z`, `0-9`, `+`, `/`, pad `=`. -/
def dtbl : Table :=
  codeRange 0x41 26 ++ codeRange 0x61 26 ++ codeRange 0x30 10 ++ [0x2B, 0x2F, 0x3D]

/-- BTBL (R29): `.`, `/`, `A-Z`, `a-z`, `0-9`, no pad. -/
def btbl : Table :=
  [0x2E, 0x2F] ++ codeRange 0x41 26 ++ codeRange 0x61 26 ++ codeRange 0x30 10 ++ [0x00]

/-- MAGIC (R30): the ASCII bytes of `OrpheanBeholderScryDoubt`. -/
def magic : Block24 :=
  #v[0x4F, 0x72, 0x70, 0x68, 0x65, 0x61, 0x6E, 0x42, 0x65, 0x68, 0x6F, 0x6C,
     0x64, 0x65, 0x72, 0x53, 0x63, 0x72, 0x79, 0x44, 0x6F, 0x75, 0x62, 0x74]

/-- T[i]. -/
def symAt (T : Table) (i : Nat) : Byte := T.getD i 0

/-- T[64], the pad symbol; 0x00 means no padding (R96). -/
def padOf (T : Table) : Byte := T.getD 64 0

/-- TableWF (R34): 65 entries, no data symbol 0x00, all 65 distinct. -/
def tableWF (T : Table) : Bool :=
  T.length == 65 && (T.take 64).all (· != 0) && decide (T.Pairwise (· ≠ ·))

/-- Inv(T, c) (R35): the index of c in T, or none where the spec says INVALID. -/
def inv (T : Table) (c : Byte) : Option Nat := T.idxOf? c

end Sys2Proof.Machine
end

