-- ==== Sys2Proof/Machine/Codec.lean ====
section
/-! DEFINITION. The pure functions of the codec: the lengths (30_encoding.md R97), `Enc`
(40_codec_encode.md R114 to R117, R120) and `Dec` (41_codec_decode.md R144 to R147, R149 to R151, R156). -/

namespace Sys2Proof.Machine

/-! ### Lengths (R97) -/

/-- EncLenPadded(n) = ceil_div(n, 3) * 4. -/
def encLenPadded (n : Nat) : Nat := (n + 2) / 3 * 4

/-- EncLenTrue(n, T): the number of symbols present. -/
def encLenTrue (n : Nat) (T : Table) : Nat :=
  if padOf T ≠ 0 then (n + 2) / 3 * 4
  else if n % 3 = 0 then 4 * n / 3
  else n / 3 * 4 + n % 3 + 1

/-- DecLen(s): the bytes that s data symbols carry (R97, R147); no text has s mod 4 = 1. -/
def decLen (s : Nat) : Nat :=
  s / 4 * 3 + (if s % 4 = 2 then 1 else if s % 4 = 3 then 2 else 0)

/-! ### Enc -/

/-- Three bytes packed into a group, the first the most significant (R63 (a), R115). -/
def packBytes (b0 b1 b2 : Byte) : Group := b0 ++ b1 ++ b2

/-- The index v[23:18]. -/
def idx0 (v : Group) : SymIndex := v.extractLsb' 18 6
/-- The index v[17:12]. -/
def idx1 (v : Group) : SymIndex := v.extractLsb' 12 6
/-- The index v[11:6]. -/
def idx2 (v : Group) : SymIndex := v.extractLsb' 6 6
/-- The index v[5:0]. -/
def idx3 (v : Group) : SymIndex := v.extractLsb' 0 6

/-- `n` pad symbols when the table pads, none when it does not (R116, R117). -/
def padding (T : Table) (n : Nat) : List Byte := if padOf T ≠ 0 then List.replicate n (padOf T) else []

/-- Enc(T, b) (R114): full groups in order (R115), then the partial group of one byte (R116) or two
(R117), whose missing bytes count as zero (R120). -/
def enc (T : Table) : List Byte → List Byte
  | [] => []
  | [b0] =>
    let v := packBytes b0 0 0
    [symAt T (idx0 v).toNat, symAt T (idx1 v).toNat] ++ padding T 2
  | [b0, b1] =>
    let v := packBytes b0 b1 0
    [symAt T (idx0 v).toNat, symAt T (idx1 v).toNat, symAt T (idx2 v).toNat] ++ padding T 1
  | b0 :: b1 :: b2 :: rest =>
    let v := packBytes b0 b1 b2
    [symAt T (idx0 v).toNat, symAt T (idx1 v).toNat, symAt T (idx2 v).toNat, symAt T (idx3 v).toNat] ++ enc T rest

/-! ### Dec -/

/-- Four indices packed into a group: (c0 << 18) | (c1 << 12) | (c2 << 6) | c3 (R149). -/
def packIndices (c0 c1 c2 c3 : SymIndex) : Group := c0 ++ c1 ++ c2 ++ c3

/-- The byte v[23:16]. -/
def byte0 (v : Group) : Byte := v.extractLsb' 16 8
/-- The byte v[15:8]. -/
def byte1 (v : Group) : Byte := v.extractLsb' 8 8
/-- The byte v[7:0]. -/
def byte2 (v : Group) : Byte := v.extractLsb' 0 8

/-- The bytes of a sequence of indices (R149, R150); the low bits that a partial group has left over are
dropped unexamined (R151). A lone last index carries no byte (R145 and R146 fail it before). -/
def unpack : List SymIndex → List Byte
  | c0 :: c1 :: c2 :: c3 :: rest =>
    let v := packIndices c0 c1 c2 c3
    [byte0 v, byte1 v, byte2 v] ++ unpack rest
  | [c0, c1, c2] => let v := packIndices c0 c1 c2 0; [byte0 v, byte1 v]
  | [c0, c1] => let v := packIndices c0 c1 0 0; [byte0 v]
  | [_] => []
  | [] => []

/-- The scanned symbols: those before the first pad symbol, or all of the text (R144). A text has no 0x00,
so a non-padding table scans all of it. -/
def scanned (T : Table) (t : List Byte) : List Byte := t.takeWhile (· != padOf T)

/-- The text from the first pad symbol on (R144, R145). -/
def afterScan (T : Table) (t : List Byte) : List Byte := t.dropWhile (· != padOf T)

/-- The indices of the scanned symbols, or none when one is not in the table (R144). -/
def lookupAll (T : Table) : List Byte → Option (List SymIndex)
  | [] => some []
  | c :: rest =>
    match inv T c, lookupAll T rest with
    | some i, some is => some (BitVec.ofNat 6 i :: is)
    | _, _ => none

/-- The padding and remainder checks (R145 with a padding table, R146 without): `s` symbols scanned, `tail`
the text from the first pad symbol on. -/
def tailOk (T : Table) (s : Nat) (tail : List Byte) : Bool :=
  if padOf T ≠ 0 then
    (s % 4 == 0 && tail == []) || (s % 4 == 2 && tail == [padOf T, padOf T]) || (s % 4 == 3 && tail == [padOf T])
  else s % 4 != 1

/-- Dec(T, t) (R156): the bytes, or none where the spec says FormatError. -/
def dec (T : Table) (t : List Byte) : Option (List Byte) :=
  match lookupAll T (scanned T t) with
  | none => none
  | some is => if tailOk T is.length (afterScan T t) then some (unpack is) else none

end Sys2Proof.Machine
end

