-- ==== Sys2Proof/Machine/Record.lean ====
section
/-! DEFINITION. The pure functions of AHF: the salt record (42_adaptive_hash.md R172, R175), the record parser
(R180 to R185) and the hash core (R191 to R194, R197), for any cipher. -/

namespace Sys2Proof.Machine

/-- '$'. -/
abbrev dollar : Byte := 0x24
/-- 'a'. -/
abbrev minorChar : Byte := 0x61
/-- '0'. -/
abbrev digitZero : Byte := 0x30

/-- The byte is an ASCII decimal digit (R101). -/
def isDigit (d : Byte) : Bool := 0x30 ≤ d.toNat && d.toNat ≤ 0x39

/-- The two digits of a cost (R101, R175). -/
def costDigits (c : Nat) : List Byte := [digitZero + BitVec.ofNat 8 (c / 10), digitZero + BitVec.ofNat 8 (c % 10)]

/-- The cost GENSALT writes: clamped up to MIN_COST (R172). -/
def clampCost (c : Nat) : Nat := max c Config.minCost

/-- The salt record of a cost and a salt (R175): no minor character. -/
def saltRecord (c : Nat) (salt : Salt) : List Byte :=
  [dollar, Config.version, dollar] ++ costDigits c ++ [dollar] ++ enc btbl salt.toList

/-- What ParseRecord answers: the minor flag, the cost, the raw salt, and P, the offset of the salt (R180). -/
structure Parsed where
  minor : Bool
  cost : Nat
  salt : List Byte
  saltAt : Nat
deriving DecidableEq, Repr

/-- t[i], 0x00 at and past the end of the text (R10). -/
def textAt (t : List Byte) (i : Nat) : Byte := t.getD i 0

/-- The minor flag and P, or none when neither `$` nor `a$` follows the version (R182). -/
def parseMinor (t : List Byte) : Option (Bool × Nat) :=
  if textAt t 2 = dollar then some (false, 6)
  else if textAt t 2 = minorChar ∧ textAt t 3 = dollar then some (true, 7)
  else none

/-- The cost of the two bytes before t[P-1], or none when they are not two digits, t[P-1] is not `$`, or the
cost is out of range (R183). -/
def parseCost (t : List Byte) (p : Nat) : Option Nat :=
  let d1 := textAt t (p - 3)
  let d0 := textAt t (p - 2)
  let cost := 10 * (d1.toNat - 0x30) + (d0.toNat - 0x30)
  if isDigit d1 && isDigit d0 && textAt t (p - 1) == dollar && decide (Config.minCost ≤ cost) &&
      decide (cost ≤ Config.costMax) then some cost
  else none

/-- ParseRecord(t, tail) (R180): `tail` symbols after the third `$`, the first 22 of them the salt; none where
the spec says FormatError. -/
def parseRecord (t : List Byte) (tail : Nat) : Option Parsed :=
  if textAt t 0 ≠ dollar ∨ Config.version.toNat < (textAt t 1).toNat then none
  else
    match parseMinor t with
    | none => none
    | some (minor, p) =>
      match parseCost t p with
      | none => none
      | some cost =>
        if t.length ≠ p + tail then none
        else
          match dec btbl ((t.drop p).take Config.saltSyms) with
          | none => none
          | some salt => some ⟨minor, cost, salt, p⟩

/-- The key material: the password, with a 0x00 when the minor flag is set (R191). -/
def keyMaterial (pw : List Byte) (minor : Bool) : List Byte := if minor then pw ++ [0] else pw

/-- The key schedule call (R192): rounds is the natural number 2^cost. -/
def keySchedule {σ : Type} (C : Cipher σ) (key salt : List Byte) (cost : Nat) : σ :=
  C.expensiveKeySchedule C.s0 salt Config.saltLen key key.length (2 ^ cost)

/-- n calls of EncryptBlockChain, each on the buffer the one before returned, all with one state (R193). -/
def encryptRounds {σ : Type} (C : Cipher σ) (st : σ) : Nat → Block24 → Block24
  | 0, ct => ct
  | n + 1, ct => encryptRounds C st n (C.encryptBlockChain st ct Config.ctLen)

/-- HashCore(pw, minor, cost, salt) (R197): the 31 digest symbols, from the first 23 of the 24 bytes (R194). -/
def hashCore {σ : Type} (C : Cipher σ) (pw : List Byte) (minor : Bool) (cost : Nat) (salt : List Byte) : List Byte :=
  let st := keySchedule C (keyMaterial pw minor) salt cost
  enc btbl ((encryptRounds C st Config.hashRounds magic).toList.take Config.digestLen)

/-- The hash record: the text through the salt, copied verbatim, then the digest (R195). -/
def hashRecord {σ : Type} (C : Cipher σ) (pw t : List Byte) (x : Parsed) : List Byte :=
  t.take (x.saltAt + Config.saltSyms) ++ hashCore C pw x.minor x.cost x.salt

/-- The stored digest of a hash record, t[P+22 .. P+53) (R201). -/
def storedDigest (t : List Byte) (x : Parsed) : List Byte :=
  (t.drop (x.saltAt + Config.saltSyms)).take Config.digestSyms

end Sys2Proof.Machine
end

