-- ==== Sys2Proof/Machine/Operands.lean ====
section
/-! DEFINITION. Every operand form of 30_encoding.md R92: the scalar registers with their range checks
(60_exceptions.md R244), the byte and text operands (R10, R142), the table operand (R124, R34), and the
answers of the two capabilities (R174, R227, R290). -/

namespace Sys2Proof.Machine

/-- The bytes of a text: those before the first 0x00 (R10). -/
def textOf (bytes : List Byte) : List Byte := bytes.takeWhile (· != 0)

/-! ### Reading an answer from its code (`Config.callNumbering`): every answer has codes -/

/-- The 16 bytes that a number's base-256 digits are, the first byte the lowest digit. -/
def saltOfNat (k : Nat) : Salt := Vector.ofFn fun i => BitVec.ofNat 8 (k / 256 ^ i.val)

/-- The answer to a draw: 16 bytes, Unavailable, or none ever. -/
def drawOfCode (code : Nat) : DrawAnswer :=
  match code / 2 % 3 with
  | 0 => .bytes (saltOfNat (code / 6))
  | 1 => .unavailable
  | _ => .never

/-- Whether the cipher calls return. -/
def returnsOfCode (code : Nat) : Bool := code % 2 == 0

namespace State

/-- `n` consecutive bytes from an offset on (R75). -/
def readBytes (s : State) (off : Nat) : Nat → List Byte
  | 0 => []
  | n + 1 => s.byteAt off :: readBytes s (off + 1) n

/-! ### Scalar operands (R21, R244) -/

/-- ILEN and OCAP are in range (R111, R141). -/
def codecOperandsOk (s : State) : Bool :=
  decide (s.ilen.toNat ≤ Config.ibufSize) && decide (s.ocap.toNat ≤ Config.obufSize)

/-- COST is in range (R173). -/
def costOk (s : State) : Bool := decide (s.cost.toNat ≤ Config.costMax)

/-- PWLEN and RLEN are in range (R190, R200). -/
def recordOperandsOk (s : State) : Bool :=
  decide (s.pwlen.toNat ≤ Config.pwMax) && decide (s.rlen.toNat ≤ Config.recordMax)

/-! ### Buffer operands -/

/-- IBUF[0..ILEN) (R110). -/
def inputBytes (s : State) : List Byte := s.readBytes Buf.ibuf.base s.ilen.toNat

/-- TextOf(IBUF, ILEN) (R142). -/
def inputText (s : State) : List Byte := textOf s.inputBytes

/-- PWBUF[0..PWLEN), whatever the values (R191). -/
def password (s : State) : List Byte := s.readBytes Buf.pwbuf.base s.pwlen.toNat

/-- TextOf(RIN, RLEN) (R190, R200). -/
def recordText (s : State) : List Byte := textOf (s.readBytes Buf.rin.base s.rlen.toNat)

/-! ### The table operand -/

/-- TBL as it stands (R27, R124). -/
def hostTable (s : State) : Table := s.readBytes Buf.tbl.base Config.tblLen

/-- Every byte of TBL has been written since reset (R284, U1). -/
def tblWritten (s : State) : Bool :=
  (List.range Config.tblLen).all fun i => (Memory.find s.mem (Buf.tbl.base + i)).isSome

/-- A command with TSEL = 1 has a meaning (R34, R124, R284). -/
def hostTableUsable (s : State) : Bool := s.tblWritten && tableWF s.hostTable

/-! ### The answers of the capabilities: parameters of the step, numbered by `calls` -/

/-- Rng.Draw16() (R174, R227, R228, R290): what the source answers to the next call. -/
def drawAnswer (s : State) : DrawAnswer := drawOfCode (Config.callNumbering s.calls)

/-- The cipher calls of the next command that makes any all return (R224, R290). -/
def cipherReturns (s : State) : Bool := returnsOfCode (Config.callNumbering s.calls)

/-- The call, or the cipher calls, of one command are over: the next command's answer has the next number. -/
def callOver (s : State) : State := { s with calls := s.calls + 1 }

end State
end Sys2Proof.Machine
end

