-- ==== Sys2Proof/Machine/Flags.lean ====
section
/-! DEFINITION. STATUS as the host reads it (10_state.md R23, R39), and the computation of MATCH
(42_adaptive_hash.md R202). -/

namespace Sys2Proof.Machine

/-- STATUS.STATE (R23). -/
def Seq.code : Seq → BitVec 2
  | .idle => 0
  | .busy => 1
  | .done => 2
  | .halted => 3

/-- STATUS.ERR (R23, R240). -/
def Err.code : Err → BitVec 3
  | .ok => 0
  | .capacity => 1
  | .format => 2
  | .environment => 3
  | .illegal => 4

/-- The STATUS word: STATE in 1:0, ERR in 4:2, MATCH in 5, zero in 31:6 (R23). -/
def State.statusWord (s : State) : Word :=
  (0 : BitVec 26) ++ BitVec.ofBool s.matchFlag ++ s.err.code ++ s.seq.code

/-- MATCH: the computed digest equals the stored one byte for byte (R202). -/
def digestsMatch (computed stored : List Byte) : Bool := computed == stored

/-- Completion of VERIFY (R205): MATCH as found, OLEN = 0, ERR = 0, SEQ = DONE. -/
def State.completeVerify (found : Bool) (s : State) : State :=
  { s.complete 0 with matchFlag := found }

end Sys2Proof.Machine
end

