-- ==== Sys2Proof/Machine/Bus.lean ====
section
/-! DEFINITION. What the outside world does to the block: host reads and writes (20_memory.md R61 to R74) and
reset (70_reset_and_hazards.md R270). -/

namespace Sys2Proof.Machine

/-- What a host access reaches (R61, R62, R64, R65). -/
inductive Target where
  /-- A register, accessed as one aligned word. -/
  | reg (r : Reg)
  /-- A buffer byte, by its offset in the window. -/
  | byte (off : Nat)
  /-- No register and no buffer. -/
  | unmapped
  /-- A register or a buffer, with a width or alignment that is not allowed. -/
  | badAccess
deriving DecidableEq, Repr

/-- What an access of a width at an offset of the window reaches. -/
def targetAt (off width : Nat) : Target :=
  if off < regEnd then
    match Reg.atOffset off with
    | some r => if width = 4 then .reg r else .badAccess
    | none => .badAccess
  else if (bufAt off).isSome then
    if width = 1 then .byte off else .badAccess
  else .unmapped

/-- What an access of a width at a host address reaches: offsets are from BASE (R5, R60). -/
def target (addr width : Nat) : Target :=
  if Config.base ≤ addr ∧ addr < Config.base + Config.windowSize then targetAt (addr - Config.base) width
  else .unmapped

namespace State

/-- A register's value (R21 to R25). -/
def regValue (s : State) : Reg → Word
  | .cmd => s.cmd
  | .status => s.statusWord
  | .ilen => s.ilen
  | .ocap => s.ocap
  | .olen => s.olen
  | .cost => s.cost
  | .pwlen => s.pwlen
  | .rlen => s.rlen

/-- The host's read returns a value; nothing else of the block changes (R67). -/
def returnRead (v : Word) (s : State) : State := { s with readData := v }

/-- The host's read returns an unspecified value of the access's width (R73, R74; log entry 6). -/
def returnFreeWord (s : State) : State :=
  { s with readData := Config.freeWord s.draws, draws := s.draws + 1 }

/-- As `returnFreeWord`, for a byte read: the low byte of the free value, zero-extended. -/
def returnFreeByte (s : State) : State :=
  { s with readData := ((Config.freeWord s.draws).setWidth 8).setWidth 32, draws := s.draws + 1 }

/-- A register's value is defined to the host: always in IDLE and DONE, STATUS alone in BUSY (R73), STATUS
and OLEN in HALTED (R74). -/
def regReadable (s : State) (r : Reg) : Bool :=
  match s.seq with
  | .idle => true
  | .done => true
  | .busy => r == .status
  | .halted => r == .status || r == .olen

/-- A host read of a register (R64, R73, R74). -/
def readReg (r : Reg) (s : State) : State :=
  if s.regReadable r then s.returnRead (s.regValue r) else s.returnFreeWord

/-- The block takes host writes, and shows its buffers: IDLE or DONE (R21, R73, R74). -/
def hostOpen (s : State) : Bool := s.seq == .idle || s.seq == .done

/-- A host read of a buffer byte, zero-extended (R65, R73, R74). -/
def readByte (off : Nat) (s : State) : State :=
  if s.hostOpen then s.returnRead ((s.byteAt off).setWidth 32) else s.returnFreeByte

/-- What a host write to a register stores while the block is open: CMD starts a command (R22, R90), STATUS
and OLEN drop it (R66). -/
def storeReg (r : Reg) (v : Word) (s : State) : State :=
  match r with
  | .cmd => s.accept v
  | .status => s
  | .ilen => { s with ilen := v }
  | .ocap => { s with ocap := v }
  | .olen => s
  | .cost => { s with cost := v }
  | .pwlen => { s with pwlen := v }
  | .rlen => { s with rlen := v }

/-- A host write to a register: dropped while BUSY or HALTED (R73, R74). -/
def writeReg (r : Reg) (v : Word) (s : State) : State := if s.hostOpen then s.storeReg r v else s

/-- A host write to a buffer byte: dropped while BUSY or HALTED (R73, R74). -/
def writeByte (off : Nat) (v : Byte) (s : State) : State :=
  if s.hostOpen then s.storeBytes off [v] else s

/-- MemRead(addr, width) (R12, R62). -/
def hostRead (addr width : Nat) (s : State) : Outcome :=
  match target addr width with
  | .reg r => .next (s.readReg r)
  | .byte off => .next (s.readByte off)
  | .unmapped => .refused .unmappedAccess
  | .badAccess => .refused .badAccess

/-- MemWrite(addr, width, v) (R12, R62). -/
def hostWrite (addr width : Nat) (v : Word) (s : State) : Outcome :=
  match target addr width with
  | .reg r => .next (s.writeReg r v)
  | .byte off => .next (s.writeByte off (v.setWidth 8))
  | .unmapped => .refused .unmappedAccess
  | .badAccess => .refused .badAccess

/-- One action of the outside world takes effect. -/
def serve (a : Action) (s : State) : Outcome :=
  match a with
  | .read addr width => s.hostRead addr width
  | .write addr width v => s.hostWrite addr width v
  | .reset => .next s.applyReset

end State
end Sys2Proof.Machine
end

