-- ==== Sys2Proof/Machine/CodecCommands.lean ====
section
/-! DEFINITION. The meanings of ENCODE.D, ENCODE.A (40_codec_encode.md R125) and DECODE.D, DECODE.A
(41_codec_decode.md R157). A meaning runs on the state an accepted CMD write leaves (R90). -/

namespace Sys2Proof.Machine

/-- ENCODE after its operand check, with its table chosen: capacity check (R112), Enc (R114), write-back
(R118, R119). -/
def encodeWith (T : Table) (s : State) : Outcome :=
  if s.ocap.toNat < encLenPadded s.ilen.toNat then .next (s.failWith .obuf .capacity)
  else
    let e := enc T s.inputBytes
    .next ((s.storeResult .obuf s.ocap.toNat e).complete e.length)

/-- DECODE after its operand check, with its table chosen: Dec (R144 to R151, R156), capacity check (R148),
write-back (R152, R153). -/
def decodeWith (T : Table) (s : State) : Outcome :=
  match dec T s.inputText with
  | none => .next (s.failWith .obuf .format)
  | some d =>
    if s.ocap.toNat < d.length then .next (s.failWith .obuf .capacity)
    else .next ((s.storeResult .obuf s.ocap.toNat d).complete d.length)

/-- ENCODE.D (R125, TSEL = 0). -/
def execEncodeD (s : State) : Outcome :=
  if s.codecOperandsOk then encodeWith dtbl s else .next (s.failWith .obuf .illegal)

/-- ENCODE.A (R125, TSEL = 1): refused when TBL is not usable (R34, R124; the order of that check is log
entry 10). -/
def execEncodeA (s : State) : Outcome :=
  if s.codecOperandsOk then
    if s.hostTableUsable then encodeWith s.hostTable s else .refused .illFormedTable
  else .next (s.failWith .obuf .illegal)

/-- DECODE.D (R157, TSEL = 0). -/
def execDecodeD (s : State) : Outcome :=
  if s.codecOperandsOk then decodeWith dtbl s else .next (s.failWith .obuf .illegal)

/-- DECODE.A (R157, TSEL = 1): refused when TBL is not usable (R34, R140; log entry 10). -/
def execDecodeA (s : State) : Outcome :=
  if s.codecOperandsOk then
    if s.hostTableUsable then decodeWith s.hostTable s else .refused .illFormedTable
  else .next (s.failWith .obuf .illegal)

end Sys2Proof.Machine
end

