-- ==== Sys2Proof/Machine/HashCommands.lean ====
section
/-! DEFINITION. The meanings of GENSALT, HASH and VERIFY (42_adaptive_hash.md R177, R196, R205), over any
cipher, and on the cipher the platform connects. A command whose capability never answers stays BUSY
(70_reset_and_hazards.md R290, U7): its meaning answers the state it was given. -/

namespace Sys2Proof.Machine

/-- The write-back of GENSALT and HASH: the record to ROUT, zero-filled, its length to OLEN (R176, R195). -/
def writeRecord (record : List Byte) (s : State) : State :=
  (s.storeResult .rout Config.recordMax record).complete record.length

/-- GENSALT past its operand check, with what the source answers (R174, R175, R249; a source that never answers
leaves the command waiting). -/
def genSaltAnswered (answer : DrawAnswer) (s : State) : State :=
  match answer with
  | .bytes salt => writeRecord (saltRecord (clampCost s.cost.toNat) salt) s.callOver
  | .unavailable => (s.callOver.unspecify .rout).haltEnvironment
  | .never => s

/-- GENSALT (R177): operand check, then clamp, draw and record. -/
def execGenSalt (s : State) : Outcome :=
  if s.costOk then .next (genSaltAnswered s.drawAnswer s) else .next (s.failWith .rout .illegal)

/-- A command that needs the cipher ends as `finish` says when its calls return, else it waits (R290). -/
def withCipherCalls (returns : Bool) (finish : State → State) (s : State) : State :=
  if returns then finish s.callOver else s

/-- HASH on a given cipher, whose calls return or not (R196). -/
def hashWith {σ : Type} (C : Cipher σ) (returns : Bool) (s : State) : Outcome :=
  if s.recordOperandsOk then
    match parseRecord s.recordText Config.saltSyms with
    | none => .next (s.failWith .rout .format)
    | some x => .next (withCipherCalls returns (writeRecord (hashRecord C s.password s.recordText x)) s)
  else .next (s.failWith .rout .illegal)

/-- VERIFY on a given cipher, whose calls return or not (R205): a malformed record is no error, only MATCH = 0
(R203). -/
def verifyWith {σ : Type} (C : Cipher σ) (returns : Bool) (s : State) : Outcome :=
  if s.recordOperandsOk then
    match parseRecord s.recordText (Config.saltSyms + Config.digestSyms) with
    | none => .next (s.completeVerify false)
    | some x =>
      .next (withCipherCalls returns (State.completeVerify
        (digestsMatch (hashCore C s.password x.minor x.cost x.salt) (storedDigest s.recordText x))) s)
  else .next (s.raiseError .illegal)

/-- HASH (R196). -/
def execHash (s : State) : Outcome := hashWith Config.cipher s.cipherReturns s

/-- VERIFY (R205). -/
def execVerify (s : State) : Outcome := verifyWith Config.cipher s.cipherReturns s

end Sys2Proof.Machine
end

