-- ==== Sys2Proof/Machine/Dispatch.lean ====
section
/-! DEFINITION. The dispatch: one arm per command. -/

namespace Sys2Proof.Machine

def exec (i : Instr) (s : State) : Host.Outcome State Fault Refusal :=
  match i with
  | .encodeD => Sys2Proof.Machine.execEncodeD s
  | .encodeA => Sys2Proof.Machine.execEncodeA s
  | .decodeD => Sys2Proof.Machine.execDecodeD s
  | .decodeA => Sys2Proof.Machine.execDecodeA s
  | .genSalt => Sys2Proof.Machine.execGenSalt s
  | .hash => Sys2Proof.Machine.execHash s
  | .verify => Sys2Proof.Machine.execVerify s

end Sys2Proof.Machine
end

