-- ==== Sys2Proof/Machine/Sequencer.lean ====
section
/-! DEFINITION. The sequencer (10_state.md R24): executing the accepted command, what the block does with
nothing pending, and which of the two, block or outside world, moves next (log entry 1). -/

namespace Sys2Proof.Machine.State

/-- The accepted command executes, or its word names none and IllegalError is raised (R90, R94). -/
def runCommand (s : State) : Outcome :=
  match decode s.cmd with
  | .ok i => exec i s
  | .error _ => .next (s.raiseError .illegal)

/-- The block moves and the first pending action waits: a command is running, and that action is one that
waits for its end. -/
def commandFirst (s : State) (e : Event) : Bool := s.seq == .busy && !e.whileBusy

/-- What the block does with nothing pending: run its command, do nothing (IDLE and DONE, R256), or stay
halted for good (R249; log entry 9). -/
def blockAlone (s : State) : Outcome :=
  match s.seq with
  | .idle => .next s
  | .busy => s.runCommand
  | .done => .next s
  | .halted => .fault .environmentHalt

/-- The first pending action, if any, waits for the end of a running command. -/
def deferFirst : List Event → List Event
  | [] => []
  | e :: rest => { e with whileBusy := false } :: rest

/-- An accepted CMD write of a word, about to execute (R90). -/
def placeCommand (w : Word) (s : State) : State :=
  { s.accept w with pending := deferFirst s.pending }

/-- The command word that spec/opcode_table.json numbers `w` in `nbits` bits. -/
def tableWord (nbits w : Nat) : Word := BitVec.ofNat 32 (w % 2 ^ nbits)

end Sys2Proof.Machine.State
end

