-- ==== Sys2Proof/Machine/Step.lean ====
section
/-! DEFINITION. One step: either the block executes its accepted command, or the first pending action of the
outside world takes effect (20_memory.md R69: one at a time, in order). -/

namespace Sys2Proof.Machine

/-- One step of block and outside world. -/
def step (s : State) : Host.Outcome State Fault Refusal :=
  match s.pending with
  | [] => s.blockAlone
  | e :: rest =>
    if s.commandFirst e then s.runCommand else State.serve e.action { s with pending := rest }

/-- The word stored where the block takes its next command from: accepted into CMD (R90), the block BUSY,
no pending action before it. The block fetches nothing (R24); log entry 2. -/
def State.withFetchWord (s : State) (nbits w : Nat) : State := s.placeCommand (State.tableWord nbits w)

end Sys2Proof.Machine
end

