-- ==== Sys2Proof/Safety.lean ====
section
/-! DEFINITION. What claims about runs are stated in: a safe outcome, a completed command, how a command ends,
what it leaves unchanged, and the invariant of the block. -/

namespace Sys2Proof.Machine

/-- An outcome that is neither a stop nor the halt (R249: the halted state refutes normal completion). -/
def safeOutcome : Host.Outcome State Fault Refusal → Bool
  | .next s => s.seq != .halted
  | .fault _ => false
  | .refused _ => false

/-- The last command completed without an error (R250, R283). -/
def State.succeeded (s : State) : Bool := s.seq == .done && s.err == .ok

/-- A command has been accepted and has not ended: what R90 leaves. -/
def State.accepted (s : State) : Prop :=
  s.seq = .busy ∧ s.err = .ok ∧ s.matchFlag = false ∧ s.olen = 0

/-- A command has ended: SEQ, ERR, OLEN and MATCH are what the host finds (R245, R250). -/
structure State.ended (t : State) (e : Err) (count : Nat) (found : Bool) : Prop where
  seq : t.seq = .done
  err : t.err = e
  olen : t.olen.toNat = count
  matchFlag : t.matchFlag = found

/-- The registers no command writes (R21, R22) are unchanged. -/
structure State.sameOperands (s t : State) : Prop where
  cmd : t.cmd = s.cmd
  ilen : t.ilen = s.ilen
  ocap : t.ocap = s.ocap
  cost : t.cost = s.cost
  pwlen : t.pwlen = s.pwlen
  rlen : t.rlen = s.rlen

/-- SEQ, ERR, OLEN and MATCH are unchanged. -/
structure State.sameResults (s t : State) : Prop where
  seq : t.seq = s.seq
  err : t.err = s.err
  olen : t.olen = s.olen
  matchFlag : t.matchFlag = s.matchFlag

/-- What the model holds of the world outside the block is unchanged. -/
structure State.sameOutside (s t : State) : Prop where
  pending : t.pending = s.pending
  readData : t.readData = s.readData

/-- Every byte reads as before. -/
def State.sameBytes (s t : State) : Prop := ∀ off, t.byteAt off = s.byteAt off

/-- Every byte outside the `n` bytes from `base` on reads as before. -/
def State.sameBytesOutside (base n : Nat) (s t : State) : Prop :=
  ∀ off, ¬(base ≤ off ∧ off < base + n) → t.byteAt off = s.byteAt off

/-- Command `i` is ENCODE at `s` with table `T`: the default table, or a usable host table (R124). -/
def encodesWith (i : Instr) (s : State) (T : Table) : Prop :=
  (i = .encodeD ∧ T = dtbl) ∨ (i = .encodeA ∧ s.hostTableUsable = true ∧ T = s.hostTable)

/-- Command `i` is DECODE at `s` with table `T`: the default table, or a usable host table (R140). -/
def decodesWith (i : Instr) (s : State) (T : Table) : Prop :=
  (i = .decodeD ∧ T = dtbl) ∨ (i = .decodeA ∧ s.hostTableUsable = true ∧ T = s.hostTable)

/-- `n` is the scanned length of text `t` under table `T`: the least index that is the text's end or
holds the pad symbol (R144). -/
def scannedLength (T : Table) (t : List Byte) (n : Nat) : Prop :=
  n ≤ t.length ∧ (∀ j < n, textAt t j ≠ padOf T) ∧ (n = t.length ∨ textAt t n = padOf T)

/-- The sequencer is free to execute its command: the first pending action, if any, waits (log entry 1). -/
def State.commandNext (s : State) : Prop :=
  s.pending = [] ∨ ∃ e rest, s.pending = e :: rest ∧ e.whileBusy = false

/-- The invariant of the block: memory is canonical; the fields of STATUS fit together (R23, R26, R73, R74,
R245, R249, R250); OLEN counts bytes of a buffer and is 0 but after a success (R25); before the first
command CMD is 0 (R38). -/
structure State.Inv (s : State) : Prop where
  memory : Memory.wf s.mem
  idle : s.seq = .idle → s.cmd = 0 ∧ s.err = .ok ∧ s.matchFlag = false ∧ s.olen = 0
  busy : s.seq = .busy → s.err = .ok ∧ s.matchFlag = false ∧ s.olen = 0
  halted : s.seq = .halted ↔ s.err = .environment
  matched : s.matchFlag = true → s.seq = .done ∧ s.err = .ok ∧ s.olen = 0 ∧ decode s.cmd = .ok .verify
  failed : s.err ≠ .ok → s.matchFlag = false ∧ s.olen = 0
  count : s.olen.toNat ≤ Config.obufSize
  haltedBy : s.seq = .halted → decode s.cmd = .ok .genSalt

end Sys2Proof.Machine
end

