-- ==== Sys2Proof/Certificates/Slice0/Obligations.lean ====
section
/-! DEFINITION. The statements about the block, for the provers. -/

open Sys2Proof Sys2Proof.Machine

/-! ### Command words -/

/-- R91: the seven words of the opcode map decode to their commands. -/
def Obligations.OpcodeMapDecodes : Prop :=
  decode 0x00000001 = .ok .encodeD ∧ decode 0x00000009 = .ok .encodeA ∧
  decode 0x00000002 = .ok .decodeD ∧ decode 0x0000000A = .ok .decodeA ∧
  decode 0x00000003 = .ok .genSalt ∧ decode 0x00000004 = .ok .hash ∧ decode 0x00000005 = .ok .verify

/-- R91, R95: a word decodes to a command exactly when it is that command's word, so exactly seven of the
2^32 words name a command. -/
def Obligations.DecodeInvertsEncode : Prop :=
  ∀ (w : Word) (i : Instr), decode w = .ok i ↔ w = encode i

/-- R63 (c), R95: the four bytes of a command word, lowest offset first, decode to its command. -/
def Obligations.ByteOrderOfCommandWords : Prop :=
  ∀ w : Word, decodeBytes (bytesOfWord w) = decode w

/-! ### The life of a command -/

/-- R90, R22: a word written to CMD while SEQ is IDLE or DONE is stored and accepted: ERR, MATCH and OLEN are
cleared, SEQ becomes BUSY, and nothing else of the block changes. (BUSY as a state: log entry 1.) -/
def Obligations.CmdWriteIsAccepted : Prop :=
  ∀ (s : State) (b : Bool) (w : Word) (rest : List Event), (s.seq = .idle ∨ s.seq = .done) →
    s.pending = ⟨b, .write Config.base 4 w⟩ :: rest →
    step s = .next { s with cmd := w, err := .ok, matchFlag := false, olen := 0, seq := .busy, pending := rest }

/-- A step of a BUSY block whose first pending action waits is the decoded command's `exec`, on that very
state; in particular after `withFetchWord`. (The model's own scheduling: log entries 1 and 2.) -/
def Obligations.StepRunsDecodedCommand : Prop :=
  (∀ (s : State) (i : Instr), s.seq = .busy → s.commandNext → decode s.cmd = .ok i → step s = exec i s) ∧
  ∀ (s : State) (i : Instr),
    step (s.withFetchWord 32 (encode i).toNat) = exec i (s.withFetchWord 32 (encode i).toNat)

/-- R94: the words that name no command are exactly those with OP 0, 6 or 7, or a bit of 31:4 set, or TSEL = 1 with
OP 3, 4 or 5; written to CMD while SEQ is IDLE or DONE such a word is accepted, and the block ends DONE with
ERR = 4, OLEN = 0, MATCH = 0, no buffer changed and no operand register changed. (That the ending comes two steps
later, with a BUSY state between, is the model's choice, one R73 offers: log entry 1.) -/
def Obligations.IllegalWordEndsIllegal : Prop :=
  (∀ w : Word, (∀ i, w ≠ encode i) ↔
    ((w &&& 7 = 0 ∨ w &&& 7 = 6 ∨ w &&& 7 = 7) ∨ w >>> 4 ≠ 0 ∨
      (w &&& 8 ≠ 0 ∧ (w &&& 7 = 3 ∨ w &&& 7 = 4 ∨ w &&& 7 = 5)))) ∧
  ∀ (s : State) (b : Bool) (w : Word), (s.seq = .idle ∨ s.seq = .done) →
    s.pending = [⟨b, .write Config.base 4 w⟩] → (∀ i, w ≠ encode i) →
    ∃ s' t, step s = .next s' ∧ step s' = .next t ∧ t.ended .illegal 0 false ∧ s.sameBytes t ∧
      State.sameOperands { s with cmd := w } t ∧ State.sameOutside { s with pending := [] } t ∧ t.calls = s.calls

/-- R290: an accepted command ends, provided the capabilities answer: the next step leaves the block DONE,
or HALTED if it is GENSALT and the source is unavailable. (One step: log entry 1;
the numbering of the answers: log entry 7; a usable TBL: log entry 10.) -/
def Obligations.AcceptedCommandEnds : Prop :=
  ∀ (s : State) (i : Instr), s.seq = .busy → s.commandNext → decode s.cmd = .ok i →
    (i = .genSalt → s.drawAnswer ≠ .never) → ((i = .hash ∨ i = .verify) → s.cipherReturns = true) →
    ((i = .encodeA ∨ i = .decodeA) → s.hostTableUsable = true) →
    ∃ t, step s = .next t ∧ (t.seq = .done ∨ (t.seq = .halted ∧ i = .genSalt ∧ s.drawAnswer = .unavailable))

/-- R290, U7: a command whose capability never answers waits: its step changes nothing, so the next
call meets the same answer. (The form of the wait and the numbering of the answers are the model's: log entries 1
and 7.) -/
def Obligations.SilentCapabilityKeepsBusy : Prop :=
  ∀ (s : State) (x : Parsed),
    (s.cost.toNat ≤ Config.costMax → s.drawAnswer = .never → exec .genSalt s = .next s) ∧
    (s.pwlen.toNat ≤ Config.pwMax → s.rlen.toNat ≤ 64 → s.cipherReturns = false →
      parseRecord s.recordText 22 = some x → exec .hash s = .next s) ∧
    (s.pwlen.toNat ≤ Config.pwMax → s.rlen.toNat ≤ 64 → s.cipherReturns = false →
      parseRecord s.recordText 53 = some x → exec .verify s = .next s)

/-- R240: the error codes each command can end with, from an accepted state. -/
def Obligations.ErrorCodesOfCommands : Prop :=
  ∀ (s t : State) (i : Instr), s.accepted → exec i s = .next t →
    t.err ∈ (match i with
      | .encodeD => [Err.ok, .capacity, .illegal]
      | .encodeA => [Err.ok, .capacity, .illegal]
      | .decodeD => [Err.ok, .capacity, .format, .illegal]
      | .decodeA => [Err.ok, .capacity, .format, .illegal]
      | .genSalt => [Err.ok, .environment, .illegal]
      | .hash => [Err.ok, .format, .illegal]
      | .verify => [Err.ok, .illegal])

/-! ### Tables -/

/-- R34: TableWF, entry by entry. -/
def Obligations.TableWellFormedness : Prop :=
  ∀ T : Table, tableWF T = true ↔
    T.length = 65 ∧ (∀ j < 64, symAt T j ≠ 0) ∧ ∀ j k, j < k → k ≤ 64 → symAt T j ≠ symAt T k

/-- R28, R29, R30: the default table and the salt table index by index, MAGIC, and both tables are
well-formed. (The codes are general knowledge to the spec: log entry 14.) -/
def Obligations.BuiltInTables : Prop :=
  (∀ j < 26, symAt dtbl j = BitVec.ofNat 8 (0x41 + j)) ∧
  (∀ j < 26, symAt dtbl (26 + j) = BitVec.ofNat 8 (0x61 + j)) ∧
  (∀ j < 10, symAt dtbl (52 + j) = BitVec.ofNat 8 (0x30 + j)) ∧
  symAt dtbl 62 = 0x2B ∧ symAt dtbl 63 = 0x2F ∧ symAt dtbl 64 = 0x3D ∧
  symAt btbl 0 = 0x2E ∧ symAt btbl 1 = 0x2F ∧
  (∀ j < 26, symAt btbl (2 + j) = BitVec.ofNat 8 (0x41 + j)) ∧
  (∀ j < 26, symAt btbl (28 + j) = BitVec.ofNat 8 (0x61 + j)) ∧
  (∀ j < 10, symAt btbl (54 + j) = BitVec.ofNat 8 (0x30 + j)) ∧ symAt btbl 64 = 0x00 ∧
  tableWF dtbl = true ∧ tableWF btbl = true ∧
  magic.toList = [0x4F, 0x72, 0x70, 0x68, 0x65, 0x61, 0x6E, 0x42, 0x65, 0x68, 0x6F, 0x6C,
    0x64, 0x65, 0x72, 0x53, 0x63, 0x72, 0x79, 0x44, 0x6F, 0x75, 0x62, 0x74]

/-- R35: for a well-formed table, Inv(T, c) is the unique index i with T[i] = c, or INVALID when no entry
equals c. -/
def Obligations.InverseTableInverts : Prop :=
  ∀ (T : Table) (c : Byte), tableWF T = true →
    (∀ j, inv T c = some j ↔ j ≤ 64 ∧ symAt T j = c) ∧ (inv T c = none ↔ ∀ j ≤ 64, symAt T j ≠ c)

/-! ### Enc and Dec -/

/-- R115: a full group gives the symbols of the four indices, in byte terms. -/
def Obligations.EncodeFullGroup : Prop :=
  ∀ (T : Table) (b0 b1 b2 : Byte) (rest : List Byte),
    enc T (b0 :: b1 :: b2 :: rest)
      = [symAt T (b0 >>> 2).toNat, symAt T (((b0 &&& 0x03) <<< 4) ||| (b1 >>> 4)).toNat,
         symAt T (((b1 &&& 0x0F) <<< 2) ||| (b2 >>> 6)).toNat, symAt T (b2 &&& 0x3F).toNat] ++ enc T rest

/-- R116, R117, R120: the partial groups, with and without a pad symbol; the empty input. (The zero
fill of R120 is general knowledge to the spec: log entry 14.) -/
def Obligations.EncodePartialGroups : Prop :=
  ∀ (T : Table) (b0 b1 : Byte),
    enc T [] = [] ∧
    (padOf T ≠ 0 → enc T [b0]
      = [symAt T (b0 >>> 2).toNat, symAt T ((b0 &&& 0x03) <<< 4).toNat, padOf T, padOf T]) ∧
    (padOf T = 0 → enc T [b0] = [symAt T (b0 >>> 2).toNat, symAt T ((b0 &&& 0x03) <<< 4).toNat]) ∧
    (padOf T ≠ 0 → enc T [b0, b1]
      = [symAt T (b0 >>> 2).toNat, symAt T (((b0 &&& 0x03) <<< 4) ||| (b1 >>> 4)).toNat,
         symAt T ((b1 &&& 0x0F) <<< 2).toNat, padOf T]) ∧
    (padOf T = 0 → enc T [b0, b1]
      = [symAt T (b0 >>> 2).toNat, symAt T (((b0 &&& 0x03) <<< 4) ||| (b1 >>> 4)).toNat,
         symAt T ((b1 &&& 0x0F) <<< 2).toNat])

/-- R97, R114: the length of an encoded text is EncLenTrue(n, T). -/
def Obligations.EncodedLength : Prop :=
  ∀ (T : Table) (b : List Byte), (enc T b).length =
    if padOf T ≠ 0 then (b.length + 2) / 3 * 4
    else if b.length % 3 = 0 then 4 * b.length / 3 else b.length / 3 * 4 + b.length % 3 + 1

/-- R149, R150, R151: the bytes of full and partial groups in symbol terms; the bits left over are dropped.
(R149 is marked by the spec as derived from R115 and R158.) -/
def Obligations.UnpackGroups : Prop :=
  ∀ (c0 c1 c2 c3 : SymIndex) (rest : List SymIndex),
    unpack (c0 :: c1 :: c2 :: c3 :: rest)
      = [(c0.setWidth 8 <<< 2) ||| (c1.setWidth 8 >>> 4),
         ((c1.setWidth 8 &&& 0x0F) <<< 4) ||| (c2.setWidth 8 >>> 2),
         ((c2.setWidth 8 &&& 0x03) <<< 6) ||| c3.setWidth 8] ++ unpack rest ∧
    unpack [c0, c1, c2]
      = [(c0.setWidth 8 <<< 2) ||| (c1.setWidth 8 >>> 4),
         ((c1.setWidth 8 &&& 0x0F) <<< 4) ||| (c2.setWidth 8 >>> 2)] ∧
    unpack [c0, c1] = [(c0.setWidth 8 <<< 2) ||| (c1.setWidth 8 >>> 4)] ∧ unpack [] = []

/-- R144, R145, R146: a text fails to decode exactly when a scanned symbol is not in the table, or the scanned
length has remainder 1, or, with a padding table, the text does not end as the remainder asks. (R145 is marked by the
spec as derived from the sentence it quotes.) -/
def Obligations.DecodeFailsExactly : Prop :=
  ∀ (T : Table) (t : List Byte) (n : Nat), tableWF T = true → (0 : Byte) ∉ t → scannedLength T t n →
    (dec T t = none ↔
      (∃ j < n, ∀ k ≤ 64, symAt T k ≠ textAt t j) ∨ n % 4 = 1 ∨
      (padOf T ≠ 0 ∧
        ((n % 4 = 0 ∧ t.length ≠ n) ∨
         (n % 4 = 2 ∧ ¬(t.length = n + 2 ∧ textAt t n = padOf T ∧ textAt t (n + 1) = padOf T)) ∨
         (n % 4 = 3 ∧ ¬(t.length = n + 1 ∧ textAt t n = padOf T)))))

/-- R147, R156: a text that decodes gives DecLen(s) bytes for scanned length s. -/
def Obligations.DecodedLength : Prop :=
  ∀ (T : Table) (t d : List Byte) (n : Nat), scannedLength T t n → dec T t = some d →
    d.length = n / 4 * 3 + (if n % 4 = 2 then 1 else if n % 4 = 3 then 2 else 0)

/-- R158: decoding an encoded sequence gives it back, for every well-formed table; the converse fails for some
text that decodes. -/
def Obligations.DecodeOfEncode : Prop :=
  (∀ (T : Table) (b : List Byte), tableWF T = true → dec T (enc T b) = some b) ∧
  ∃ (T : Table) (t d : List Byte), tableWF T = true ∧ dec T t = some d ∧ enc T d ≠ t

/-! ### ENCODE and DECODE -/

/-- R118 (with R119, R125): an ENCODE whose operands are in range and whose capacity covers the padded length
writes the text, zero-fills to OCAP, writes no byte at or above OCAP, and reports the exact count. -/
def Obligations.EncodeCompletes : Prop :=
  ∀ (i : Instr) (s : State) (T : Table), s.accepted → encodesWith i s T →
    s.ilen.toNat ≤ Config.ibufSize → s.ocap.toNat ≤ Config.obufSize →
    (s.ilen.toNat + 2) / 3 * 4 ≤ s.ocap.toNat →
    ∃ t, exec i s = .next t ∧ t.ended .ok (enc T (s.readBytes 0x1000 s.ilen.toNat)).length false ∧
      (∀ j < s.ocap.toNat, t.byteAt (0x2000 + j) = (enc T (s.readBytes 0x1000 s.ilen.toNat)).getD j 0) ∧
      s.sameBytesOutside 0x2000 s.ocap.toNat t

/-- R112: an ENCODE reports CapacityError exactly when its capacity is below the padded length, whatever the
table; equality passes. -/
def Obligations.EncodeCapacityError : Prop :=
  ∀ (i : Instr) (s : State) (T : Table), s.accepted → encodesWith i s T →
    s.ilen.toNat ≤ Config.ibufSize → s.ocap.toNat ≤ Config.obufSize →
    ∃ t, exec i s = .next t ∧ (t.err = .capacity ↔ s.ocap.toNat < (s.ilen.toNat + 2) / 3 * 4) ∧
      (s.ocap.toNat < (s.ilen.toNat + 2) / 3 * 4 → t.ended .capacity 0 false)

/-- R111, R141: ENCODE and DECODE with ILEN or OCAP out of range report IllegalError, also with an unusable TBL
(the order of the two checks is log entry 10). -/
def Obligations.CodecOperandsOutOfRange : Prop :=
  ∀ (i : Instr) (s : State), s.accepted →
    (i = .encodeD ∨ i = .encodeA ∨ i = .decodeD ∨ i = .decodeA) →
    (Config.ibufSize < s.ilen.toNat ∨ Config.obufSize < s.ocap.toNat) →
    ∃ t, exec i s = .next t ∧ t.ended .illegal 0 false

/-- R34, R284 (log entry 10 for the order of the checks): ENCODE.A and DECODE.A with a TBL that has an
unwritten byte or is not well-formed are refused. -/
def Obligations.UnusableTableIsRefused : Prop :=
  ∀ (i : Instr) (s : State), (i = .encodeA ∨ i = .decodeA) →
    s.ilen.toNat ≤ Config.ibufSize → s.ocap.toNat ≤ Config.obufSize →
    ((∃ j < 65, Memory.find s.mem (0x40 + j) = none) ∨ tableWF (s.readBytes 0x40 65) = false) →
    exec i s = .refused .illFormedTable

/-- R152 (with R153, R157): a DECODE of a text that decodes and fits writes the bytes, zero-fills to OCAP, writes
no byte at or above OCAP, and reports the count. -/
def Obligations.DecodeCompletes : Prop :=
  ∀ (i : Instr) (s : State) (T : Table) (d : List Byte), s.accepted → decodesWith i s T →
    s.ilen.toNat ≤ Config.ibufSize → s.ocap.toNat ≤ Config.obufSize →
    dec T (textOf (s.readBytes 0x1000 s.ilen.toNat)) = some d → d.length ≤ s.ocap.toNat →
    ∃ t, exec i s = .next t ∧ t.ended .ok d.length false ∧
      (∀ j < s.ocap.toNat, t.byteAt (0x2000 + j) = d.getD j 0) ∧ s.sameBytesOutside 0x2000 s.ocap.toNat t

/-- R144 to R146, R154: a DECODE of a text that does not decode reports FormatError, whatever the capacity. -/
def Obligations.DecodeFormatError : Prop :=
  ∀ (i : Instr) (s : State) (T : Table), s.accepted → decodesWith i s T →
    s.ilen.toNat ≤ Config.ibufSize → s.ocap.toNat ≤ Config.obufSize →
    dec T (textOf (s.readBytes 0x1000 s.ilen.toNat)) = none →
    ∃ t, exec i s = .next t ∧ t.ended .format 0 false

/-- R148: a DECODE of a text that decodes to m bytes reports CapacityError exactly when m is above OCAP;
equality passes. -/
def Obligations.DecodeCapacityError : Prop :=
  ∀ (i : Instr) (s : State) (T : Table) (d : List Byte), s.accepted → decodesWith i s T →
    s.ilen.toNat ≤ Config.ibufSize → s.ocap.toNat ≤ Config.obufSize →
    dec T (textOf (s.readBytes 0x1000 s.ilen.toNat)) = some d →
    ∃ t, exec i s = .next t ∧ (t.err = .capacity ↔ s.ocap.toNat < d.length) ∧
      (s.ocap.toNat < d.length → t.ended .capacity 0 false)

/-- The frame of ENCODE.D, ENCODE.A, DECODE.D and DECODE.A: besides SEQ, ERR and OLEN only bytes of OBUF
change: those below OCAP after a success (R118, R152), any of OBUF after a failure (R246; log entry 5). -/
def Obligations.CodecFrame : Prop :=
  ∀ (i : Instr) (s t : State), (i = .encodeD ∨ i = .encodeA ∨ i = .decodeD ∨ i = .decodeA) →
    exec i s = .next t →
    s.sameOperands t ∧ s.sameOutside t ∧ t.calls = s.calls ∧ t.matchFlag = s.matchFlag ∧
    (t.err = .ok → s.sameBytesOutside 0x2000 s.ocap.toNat t) ∧
    (t.err ≠ .ok → t.olen = s.olen ∧ s.sameBytesOutside 0x2000 Config.obufSize t)

/-- R158 on the machine: what ENCODE wrote, decoded with the same table into enough room, is the input. -/
def Obligations.EncodeThenDecode : Prop :=
  ∀ (i k : Instr) (s t u : State) (T : Table), s.accepted → encodesWith i s T → exec i s = .next t →
    t.err = .ok → u.accepted → decodesWith k u T →
    u.ilen.toNat ≤ Config.ibufSize → u.ocap.toNat ≤ Config.obufSize → s.ilen.toNat ≤ u.ocap.toNat →
    textOf (u.readBytes 0x1000 u.ilen.toNat) = t.readBytes 0x2000 t.olen.toNat →
    ∃ v, exec k u = .next v ∧ v.ended .ok s.ilen.toNat false ∧
      v.readBytes 0x2000 s.ilen.toNat = s.readBytes 0x1000 s.ilen.toNat

/-! ### GENSALT -/

/-- R172, R175, R176: a GENSALT whose source answers writes the 28-symbol salt record of the clamped cost and
zero-fills ROUT; COST is not changed. (What the source answers is a free value: log entry 7.) -/
def Obligations.GenSaltCompletes : Prop :=
  ∀ (s : State) (x : Salt) (c : Nat), s.accepted → s.cost.toNat ≤ Config.costMax → s.drawAnswer = .bytes x →
    c = max s.cost.toNat 4 →
    ∃ t, exec .genSalt s = .next t ∧ t.ended .ok 28 false ∧ t.cost = s.cost ∧
      (enc btbl x.toList).length = 22 ∧
      t.readBytes 0x100 64 = [0x24, 0x32, 0x24, BitVec.ofNat 8 (0x30 + c / 10), BitVec.ofNat 8 (0x30 + c % 10), 0x24]
        ++ enc btbl x.toList ++ List.replicate 36 0

/-- R173: a GENSALT with COST above COST_MAX reports IllegalError, and nothing is drawn from the source:
no call is over. -/
def Obligations.GenSaltCostOutOfRange : Prop :=
  ∀ s : State, s.accepted → Config.costMax < s.cost.toNat →
    ∃ t, exec .genSalt s = .next t ∧ t.ended .illegal 0 false ∧ t.calls = s.calls

/-- R174, R249: a GENSALT whose source is unavailable halts the block. -/
def Obligations.GenSaltHaltsWithoutSource : Prop :=
  ∀ s : State, s.accepted → s.cost.toNat ≤ Config.costMax → s.drawAnswer = .unavailable →
    ∃ t, exec .genSalt s = .next t ∧ t.seq = .halted ∧ t.err = .environment ∧ t.olen = 0 ∧
      t.matchFlag = false

/-! ### The record parser and the hash core -/

/-- R180 to R185: a text parses exactly when it has the grammar: lead, version, minor, cost in range, the
required tail, and a salt that decodes. -/
def Obligations.ParseRecordExactly : Prop :=
  ∀ (t : List Byte) (tail : Nat) (x : Parsed), parseRecord t tail = some x ↔
    textAt t 0 = 0x24 ∧ (textAt t 1).toNat ≤ Config.version.toNat ∧
    ((textAt t 2 = 0x24 ∧ x.minor = false ∧ x.saltAt = 6) ∨
      (textAt t 2 = 0x61 ∧ textAt t 3 = 0x24 ∧ x.minor = true ∧ x.saltAt = 7)) ∧
    (∃ d1 d0 : Nat, d1 ≤ 9 ∧ d0 ≤ 9 ∧ textAt t (x.saltAt - 3) = BitVec.ofNat 8 (0x30 + d1) ∧
      textAt t (x.saltAt - 2) = BitVec.ofNat 8 (0x30 + d0) ∧ x.cost = 10 * d1 + d0) ∧
    textAt t (x.saltAt - 1) = 0x24 ∧ 4 ≤ x.cost ∧ x.cost ≤ Config.costMax ∧
    t.length = x.saltAt + tail ∧ dec btbl ((t.drop x.saltAt).take 22) = some x.salt

/-- R185: the salt of a record that parses is 16 raw bytes. -/
def Obligations.ParsedSaltHasSixteenBytes : Prop :=
  ∀ (t : List Byte) (tail : Nat) (x : Parsed), 22 ≤ tail → (0 : Byte) ∉ t → parseRecord t tail = some x →
    x.salt.length = 16

/-- R175, R180: the salt record GENSALT writes for a cost in range parses back to that cost and salt, without
the minor flag. -/
def Obligations.SaltRecordParses : Prop :=
  ∀ (c : Nat) (x : Salt), 4 ≤ c → c ≤ 99 →
    parseRecord (saltRecord c x) 22 = some ⟨false, c, x.toList, 6⟩

/-- R191 to R194, R197: for every cipher, the digest is the encoding of the first 23 bytes of MAGIC encrypted
exactly 64 times under the one state of the one key schedule with 2^cost rounds. -/
def Obligations.HashCoreProcedure : Prop :=
  ∀ (σ : Type) (C : Cipher σ) (pw salt : List Byte) (minor : Bool) (cost : Nat),
    hashCore C pw minor cost salt =
      enc btbl (List.take 23 (Vector.toList
        ((fun ct => C.encryptBlockChain
            (if minor then C.expensiveKeySchedule C.s0 salt 16 (pw ++ [0]) (pw.length + 1) (2 ^ cost)
             else C.expensiveKeySchedule C.s0 salt 16 pw pw.length (2 ^ cost)) ct 24)^[64] magic)))

/-- R194: the digest is 31 symbols, for every cipher. -/
def Obligations.DigestHasThirtyOneSymbols : Prop :=
  ∀ (σ : Type) (C : Cipher σ) (pw salt : List Byte) (minor : Bool) (cost : Nat),
    (hashCore C pw minor cost salt).length = 31

/-- R186: a record that does not parse makes no cipher call: HASH and VERIFY answer the same on every cipher,
whether or not its calls would return.
(Two runs are compared. On HASH's FormatError path the equality takes in ROUT's unspecified bytes, which are equal
only because equal event numbers give equal free bytes: that part is the model's choice, log entries 4 and 5.) -/
def Obligations.MalformedRecordCallsNoCipher : Prop :=
  ∀ (σ τ : Type) (C : Cipher σ) (D : Cipher τ) (c d : Bool) (s : State),
    (parseRecord s.recordText 22 = none → hashWith C c s = hashWith D d s) ∧
    (parseRecord s.recordText 53 = none → verifyWith C c s = verifyWith D d s)

/-! ### HASH and VERIFY -/

/-- R195, R196: a HASH whose record parses and whose cipher answers writes the record through the salt
verbatim, then the digest, and zero-fills ROUT. -/
def Obligations.HashCompletes : Prop :=
  ∀ (s : State) (x : Parsed), s.accepted → s.pwlen.toNat ≤ Config.pwMax → s.rlen.toNat ≤ 64 →
    parseRecord (textOf (s.readBytes 0xC0 s.rlen.toNat)) 22 = some x → s.cipherReturns = true →
    ∃ t, exec .hash s = .next t ∧ t.ended .ok (x.saltAt + 53) false ∧
      t.readBytes 0x100 64 = textOf (s.readBytes 0xC0 s.rlen.toNat)
        ++ hashCore Config.cipher (s.readBytes 0x200 s.pwlen.toNat) x.minor x.cost x.salt
        ++ List.replicate (11 - x.saltAt) 0

/-- R186, R242: a HASH whose record does not parse reports FormatError, whether or not a cipher would answer:
no call is made. -/
def Obligations.HashFormatError : Prop :=
  ∀ s : State, s.accepted → s.pwlen.toNat ≤ Config.pwMax → s.rlen.toNat ≤ 64 →
    parseRecord (textOf (s.readBytes 0xC0 s.rlen.toNat)) 22 = none →
    ∃ t, exec .hash s = .next t ∧ t.ended .format 0 false ∧ t.calls = s.calls

/-- R201, R202, R205: a VERIFY whose record parses and whose cipher answers sets MATCH exactly when the
computed digest equals the stored one. -/
def Obligations.VerifyCompletes : Prop :=
  ∀ (s : State) (x : Parsed) (r : List Byte), s.accepted → s.pwlen.toNat ≤ Config.pwMax →
    s.rlen.toNat ≤ 64 → r = textOf (s.readBytes 0xC0 s.rlen.toNat) → parseRecord r 53 = some x →
    s.cipherReturns = true →
    ∃ t, exec .verify s = .next t ∧
      t.ended .ok 0 (decide (hashCore Config.cipher (s.readBytes 0x200 s.pwlen.toNat) x.minor x.cost x.salt
        = (r.drop (x.saltAt + 22)).take 31))

/-- R203, R255: a VERIFY whose record does not parse ends with MATCH = 0 and ERR = 0. -/
def Obligations.VerifyMasksFormatError : Prop :=
  ∀ s : State, s.accepted → s.pwlen.toNat ≤ Config.pwMax → s.rlen.toNat ≤ 64 →
    parseRecord (textOf (s.readBytes 0xC0 s.rlen.toNat)) 53 = none →
    ∃ t, exec .verify s = .next t ∧ t.ended .ok 0 false

/-- R190, R200: HASH and VERIFY with PWLEN or RLEN out of range report IllegalError. -/
def Obligations.RecordOperandsOutOfRange : Prop :=
  ∀ (i : Instr) (s : State), s.accepted → (i = .hash ∨ i = .verify) →
    (Config.pwMax < s.pwlen.toNat ∨ 64 < s.rlen.toNat) →
    ∃ t, exec i s = .next t ∧ t.ended .illegal 0 false

/-- The frame of GENSALT, HASH and VERIFY: besides SEQ, ERR, OLEN and MATCH only bytes of ROUT change, and
VERIFY changes no byte (R204, R207); at most one call on a capability is over; GENSALT and HASH leave MATCH
alone. (The whole of ROUT after a failure: log entry 5.) -/
def Obligations.HashFrame : Prop :=
  ∀ (i : Instr) (s t : State), (i = .genSalt ∨ i = .hash ∨ i = .verify) → exec i s = .next t →
    s.sameOperands t ∧ s.sameOutside t ∧ s.sameBytesOutside 0x100 64 t ∧
    (i = .verify → s.sameBytes t) ∧ (t.calls = s.calls ∨ t.calls = s.calls + 1) ∧
    (i ≠ .verify → t.matchFlag = s.matchFlag)

/-- R205's property, first half, on the machine: the record a HASH wrote, given to VERIFY with the same
password, matches, for every cipher behaviour. -/
def Obligations.HashThenVerifyMatches : Prop :=
  ∀ s t u : State, s.accepted → exec .hash s = .next t → t.seq = .done → t.err = .ok →
    u.accepted → u.cipherReturns = true → u.pwlen.toNat ≤ Config.pwMax → u.rlen.toNat ≤ 64 →
    u.readBytes 0x200 u.pwlen.toNat = s.readBytes 0x200 s.pwlen.toNat →
    textOf (u.readBytes 0xC0 u.rlen.toNat) = t.readBytes 0x100 t.olen.toNat →
    ∃ v, exec .verify u = .next v ∧ v.ended .ok 0 true

/-! ### What no command does -/

/-- R21, R27, R31, R33: no command writes an operand register, CMD, or a byte of TBL, IBUF, PWBUF or RIN. -/
def Obligations.CommandsWriteNoInput : Prop :=
  ∀ (i : Instr) (s t : State), exec i s = .next t →
    s.sameOperands t ∧
    ∀ (b : Buf) (off : Nat), b ≠ .obuf → b ≠ .rout → b.has off = true → t.byteAt off = s.byteAt off

/-- R27, R170, R207: only ENCODE.A and DECODE.A read TBL: on any other command, other bytes in TBL change nothing
outside TBL. (Two runs are compared. That the unspecified bytes of OBUF or ROUT after a failure, other unwritten
bytes, and the answers of the capabilities are equal in both is the model's choice, because equal numbers give equal
free values: log entries 4, 5 and 7.) -/
def Obligations.OnlyHostTableCommandsReadTbl : Prop :=
  ∀ (i : Instr) (s t : State) (bytes : List Byte), i ≠ .encodeA → i ≠ .decodeA → bytes.length ≤ 65 →
    exec i s = .next t →
    ∃ t', exec i (s.storeBytes 0x40 bytes) = .next t' ∧ s.sameOperands t' ∧ t.sameResults t' ∧
      t.sameOutside t' ∧ t'.calls = t.calls ∧ t.sameBytesOutside 0x40 65 t'

/-! ### Host accesses -/

/-- R61, R64, R65: an access reaches a register exactly when it is the aligned word at its offset, and a byte of
a buffer exactly when it is one byte inside that buffer. -/
def Obligations.AddressMap : Prop :=
  (∀ (off width : Nat) (r : Reg), target (Config.base + off) width = .reg r ↔ off = r.offset ∧ width = 4) ∧
  ∀ (off width o : Nat), target (Config.base + off) width = .byte o ↔
    o = off ∧ width = 1 ∧
      ((0x40 ≤ off ∧ off < 0x40 + 65) ∨ (0xC0 ≤ off ∧ off < 0xC0 + 64) ∨ (0x100 ≤ off ∧ off < 0x100 + 64) ∨
       (0x200 ≤ off ∧ off < 0x200 + Config.pwMax) ∨ (0x1000 ≤ off ∧ off < 0x1000 + Config.ibufSize) ∨
       (0x2000 ≤ off ∧ off < 0x2000 + Config.obufSize))

/-- R62: any other access is refused, in every state. (Outside the window, and a bad access to a buffer or register
while BUSY or HALTED, the refusal is the model's: log entry 11.) -/
def Obligations.OtherAccessesAreRefused : Prop :=
  ∀ (s : State) (b : Bool) (rest : List Event) (addr width : Nat) (v : Word),
    (∀ r, target addr width ≠ .reg r) → (∀ o, target addr width ≠ .byte o) → (s.seq = .busy → b = true) →
    (s.pending = ⟨b, .read addr width⟩ :: rest ∨ s.pending = ⟨b, .write addr width v⟩ :: rest) →
    step s = .refused .unmappedAccess ∨ step s = .refused .badAccess

/-- R21, R66: with the block IDLE or DONE, a word written to an operand register is stored there and nothing
else changes; one written to STATUS or OLEN is dropped. -/
def Obligations.RegisterWrites : Prop :=
  ∀ (s : State) (b : Bool) (r : Reg) (v : Word) (rest : List Event), (s.seq = .idle ∨ s.seq = .done) →
    r ≠ .cmd → s.pending = ⟨b, .write (Config.base + r.offset) 4 v⟩ :: rest →
    step s = .next (match r with
      | .cmd => s
      | .status => { s with pending := rest }
      | .ilen => { s with ilen := v, pending := rest }
      | .ocap => { s with ocap := v, pending := rest }
      | .olen => { s with pending := rest }
      | .cost => { s with cost := v, pending := rest }
      | .pwlen => { s with pwlen := v, pending := rest }
      | .rlen => { s with rlen := v, pending := rest })

/-- R65, R66: with the block IDLE or DONE, a byte written to a buffer is stored there; every other byte and
every register is unchanged. (Bits 7:0 of the value are the byte: log entry 12.) -/
def Obligations.BufferWrites : Prop :=
  ∀ (s : State) (b : Bool) (buf : Buf) (j : Nat) (v : Word) (rest : List Event),
    (s.seq = .idle ∨ s.seq = .done) → j < buf.size →
    s.pending = ⟨b, .write (Config.base + (buf.base + j)) 1 v⟩ :: rest →
    ∃ t, step s = .next t ∧ t.byteAt (buf.base + j) = v.setWidth 8 ∧
      s.sameBytesOutside (buf.base + j) 1 t ∧ s.sameOperands t ∧ s.sameResults t ∧ t.calls = s.calls ∧
      t.pending = rest

/-- R67, R23, R25: with the block IDLE or DONE, a read returns the register's value or the buffer byte, and
changes nothing of the block. (The byte zero-extended: log entry 12.) -/
def Obligations.ReadsHaveNoSideEffect : Prop :=
  ∀ (s : State) (b : Bool) (rest : List Event), (s.seq = .idle ∨ s.seq = .done) →
    (∀ r : Reg, s.pending = ⟨b, .read (Config.base + r.offset) 4⟩ :: rest →
      step s = .next { s with pending := rest, readData := s.regValue r }) ∧
    ∀ (buf : Buf) (j : Nat), j < buf.size → s.pending = ⟨b, .read (Config.base + (buf.base + j)) 1⟩ :: rest →
      step s = .next { s with pending := rest, readData := (s.byteAt (buf.base + j)).setWidth 32 }

/-- R73: while BUSY every host write is dropped, a read of STATUS returns BUSY with ERR = 0 and MATCH = 0, and
any other read changes nothing of the block. (An access that lands while BUSY is one marked so: log entry 1; the
value of the other reads is free: log entry 6.) -/
def Obligations.AccessesWhileBusy : Prop :=
  ∀ (s : State) (rest : List Event) (addr width : Nat) (v : Word), s.accepted →
    ((∃ r, target addr width = .reg r) ∨ ∃ o, target addr width = .byte o) →
    (s.pending = ⟨true, .write addr width v⟩ :: rest → step s = .next { s with pending := rest }) ∧
    (s.pending = ⟨true, .read addr width⟩ :: rest → target addr width = .reg .status →
      step s = .next { s with pending := rest, readData := 0x00000001 }) ∧
    (s.pending = ⟨true, .read addr width⟩ :: rest → target addr width ≠ .reg .status →
      ∃ v n, step s = .next { s with pending := rest, readData := v, draws := n })

/-- R74: while HALTED every host write is dropped, a read of STATUS returns 0x0000000F and one of OLEN returns 0,
and any other read changes nothing of the block. (The value of the other reads is free: log entry 6.) -/
def Obligations.AccessesWhileHalted : Prop :=
  ∀ (s : State) (b : Bool) (rest : List Event) (addr width : Nat) (v : Word), s.Inv → s.seq = .halted →
    ((∃ r, target addr width = .reg r) ∨ ∃ o, target addr width = .byte o) →
    (s.pending = ⟨b, .write addr width v⟩ :: rest → step s = .next { s with pending := rest }) ∧
    (s.pending = ⟨b, .read addr width⟩ :: rest → target addr width = .reg .status →
      step s = .next { s with pending := rest, readData := 0x0000000F }) ∧
    (s.pending = ⟨b, .read addr width⟩ :: rest → target addr width = .reg .olen →
      step s = .next { s with pending := rest, readData := 0 }) ∧
    (s.pending = ⟨b, .read addr width⟩ :: rest → target addr width ≠ .reg .status →
      target addr width ≠ .reg .olen →
      ∃ v n, step s = .next { s with pending := rest, readData := v, draws := n })

/-- R249, R74: nothing but reset leaves HALTED, and until then no register and no known byte changes. -/
def Obligations.OnlyResetLeavesHalted : Prop :=
  ∀ s t : State, s.seq = .halted → step s = .next t →
    (∃ b rest, s.pending = ⟨b, .reset⟩ :: rest) ∨
    (t.seq = .halted ∧ t.err = s.err ∧ t.olen = s.olen ∧ t.matchFlag = s.matchFlag ∧ s.sameOperands t ∧
      t.mem = s.mem)

/-- R249, U8: a HALTED block with nothing pending ends the run in a fault. (That the fault waits until nothing is
pending is the model's: log entry 9.) -/
def Obligations.HaltedRunEndsInFault : Prop :=
  ∀ s : State, s.seq = .halted → s.pending = [] → step s = .fault .environmentHalt

/-- R23, R39: the fields of STATUS as the host reads them. -/
def Obligations.StatusFields : Prop :=
  ∀ s : State,
    (s.statusWord.extractLsb' 0 2).toNat = (match s.seq with | .idle => 0 | .busy => 1 | .done => 2 | .halted => 3) ∧
    (s.statusWord.extractLsb' 2 3).toNat = (match s.err with
      | .ok => 0 | .capacity => 1 | .format => 2 | .environment => 3 | .illegal => 4) ∧
    s.statusWord.getLsbD 5 = s.matchFlag ∧ s.statusWord.extractLsb' 6 26 = 0

/-! ### Reset and the invariant -/

/-- R38: the state after reset: SEQ = IDLE, STATUS 0, every register 0, no buffer byte known. -/
def Obligations.ResetValues : Prop :=
  State.reset.seq = .idle ∧ State.reset.statusWord = 0 ∧ (∀ r : Reg, State.reset.regValue r = 0) ∧
  State.reset.mem = []

/-- R270, R272: a reset taken in any state, a running command or the halt among them, leaves the state after
reset: SEQ = IDLE, every register 0, no buffer byte known. -/
def Obligations.ResetFromAnyState : Prop :=
  ∀ (s : State) (b : Bool) (rest : List Event), (s.seq = .busy → b = true) →
    s.pending = ⟨b, .reset⟩ :: rest →
    ∃ t, step s = .next t ∧ t.seq = .idle ∧ (∀ r : Reg, t.regValue r = 0) ∧ t.mem = [] ∧ t.pending = rest

/-- The state after reset has the invariant. -/
def Obligations.ResetHasInvariant : Prop := State.reset.Inv

/-- Every step keeps the invariant: canonical memory, the fields of STATUS fitting together (R23, R26, R245,
R249, R250), OLEN a count of buffer bytes that is 0 but after a success (R25), HALTED only after GENSALT. -/
def Obligations.StepKeepsInvariant : Prop :=
  ∀ s t : State, s.Inv → step s = .next t → t.Inv
end

