-- ==== Sys2Proof/Laws/State.lean ====
section
/-! SUPPORT. One lemma per field per update of `State`, true by unfolding, so that no later proof opens a
record update. -/

namespace Sys2Proof.Config

/-! ### The parameters and constants, in numbers (R5, R6) -/

@[simp] theorem base_val : base = 0 := rfl
@[simp] theorem windowSize_val : windowSize = 0x4000 := rfl
@[simp] theorem ibufSize_val : ibufSize = 4096 := rfl
@[simp] theorem obufSize_val : obufSize = 4096 := rfl
@[simp] theorem pwMax_val : pwMax = 256 := rfl
@[simp] theorem version_val : version = 0x32 := rfl
@[simp] theorem costMax_val : costMax = 99 := rfl
@[simp] theorem tblLen_val : tblLen = 65 := rfl
@[simp] theorem minCost_val : minCost = 4 := rfl
@[simp] theorem hashRounds_val : hashRounds = 64 := rfl
@[simp] theorem saltLen_val : saltLen = 16 := rfl
@[simp] theorem saltSyms_val : saltSyms = 22 := rfl
@[simp] theorem ctLen_val : ctLen = 24 := rfl
@[simp] theorem digestLen_val : digestLen = 23 := rfl
@[simp] theorem digestSyms_val : digestSyms = 31 := rfl
@[simp] theorem recordMax_val : recordMax = 64 := rfl

end Sys2Proof.Config

namespace Sys2Proof.Machine.State

/-! ### `accept` (R90) -/

@[simp] theorem accept_seq (w : Word) (s : State) : (s.accept w).seq = .busy := rfl
@[simp] theorem accept_cmd (w : Word) (s : State) : (s.accept w).cmd = w := rfl
@[simp] theorem accept_err (w : Word) (s : State) : (s.accept w).err = .ok := rfl
@[simp] theorem accept_matchFlag (w : Word) (s : State) : (s.accept w).matchFlag = false := rfl
@[simp] theorem accept_ilen (w : Word) (s : State) : (s.accept w).ilen = s.ilen := rfl
@[simp] theorem accept_ocap (w : Word) (s : State) : (s.accept w).ocap = s.ocap := rfl
@[simp] theorem accept_olen (w : Word) (s : State) : (s.accept w).olen = 0 := rfl
@[simp] theorem accept_cost (w : Word) (s : State) : (s.accept w).cost = s.cost := rfl
@[simp] theorem accept_pwlen (w : Word) (s : State) : (s.accept w).pwlen = s.pwlen := rfl
@[simp] theorem accept_rlen (w : Word) (s : State) : (s.accept w).rlen = s.rlen := rfl
@[simp] theorem accept_mem (w : Word) (s : State) : (s.accept w).mem = s.mem := rfl
@[simp] theorem accept_obufEpoch (w : Word) (s : State) : (s.accept w).obufEpoch = s.obufEpoch := rfl
@[simp] theorem accept_routEpoch (w : Word) (s : State) : (s.accept w).routEpoch = s.routEpoch := rfl
@[simp] theorem accept_resetEpoch (w : Word) (s : State) : (s.accept w).resetEpoch = s.resetEpoch := rfl
@[simp] theorem accept_draws (w : Word) (s : State) : (s.accept w).draws = s.draws := rfl
@[simp] theorem accept_calls (w : Word) (s : State) : (s.accept w).calls = s.calls := rfl
@[simp] theorem accept_pending (w : Word) (s : State) : (s.accept w).pending = s.pending := rfl
@[simp] theorem accept_readData (w : Word) (s : State) : (s.accept w).readData = s.readData := rfl

/-! ### `raiseError` (R245) -/

@[simp] theorem raiseError_seq (e : Err) (s : State) : (s.raiseError e).seq = .done := rfl
@[simp] theorem raiseError_cmd (e : Err) (s : State) : (s.raiseError e).cmd = s.cmd := rfl
@[simp] theorem raiseError_err (e : Err) (s : State) : (s.raiseError e).err = e := rfl
@[simp] theorem raiseError_matchFlag (e : Err) (s : State) : (s.raiseError e).matchFlag = s.matchFlag := rfl
@[simp] theorem raiseError_ilen (e : Err) (s : State) : (s.raiseError e).ilen = s.ilen := rfl
@[simp] theorem raiseError_ocap (e : Err) (s : State) : (s.raiseError e).ocap = s.ocap := rfl
@[simp] theorem raiseError_olen (e : Err) (s : State) : (s.raiseError e).olen = s.olen := rfl
@[simp] theorem raiseError_cost (e : Err) (s : State) : (s.raiseError e).cost = s.cost := rfl
@[simp] theorem raiseError_pwlen (e : Err) (s : State) : (s.raiseError e).pwlen = s.pwlen := rfl
@[simp] theorem raiseError_rlen (e : Err) (s : State) : (s.raiseError e).rlen = s.rlen := rfl
@[simp] theorem raiseError_mem (e : Err) (s : State) : (s.raiseError e).mem = s.mem := rfl
@[simp] theorem raiseError_obufEpoch (e : Err) (s : State) : (s.raiseError e).obufEpoch = s.obufEpoch := rfl
@[simp] theorem raiseError_routEpoch (e : Err) (s : State) : (s.raiseError e).routEpoch = s.routEpoch := rfl
@[simp] theorem raiseError_resetEpoch (e : Err) (s : State) : (s.raiseError e).resetEpoch = s.resetEpoch := rfl
@[simp] theorem raiseError_draws (e : Err) (s : State) : (s.raiseError e).draws = s.draws := rfl
@[simp] theorem raiseError_calls (e : Err) (s : State) : (s.raiseError e).calls = s.calls := rfl
@[simp] theorem raiseError_pending (e : Err) (s : State) : (s.raiseError e).pending = s.pending := rfl
@[simp] theorem raiseError_readData (e : Err) (s : State) : (s.raiseError e).readData = s.readData := rfl

/-! ### `haltEnvironment` (R249) -/

@[simp] theorem haltEnvironment_seq (s : State) : (s.haltEnvironment).seq = .halted := rfl
@[simp] theorem haltEnvironment_cmd (s : State) : (s.haltEnvironment).cmd = s.cmd := rfl
@[simp] theorem haltEnvironment_err (s : State) : (s.haltEnvironment).err = .environment := rfl
@[simp] theorem haltEnvironment_matchFlag (s : State) : (s.haltEnvironment).matchFlag = s.matchFlag := rfl
@[simp] theorem haltEnvironment_ilen (s : State) : (s.haltEnvironment).ilen = s.ilen := rfl
@[simp] theorem haltEnvironment_ocap (s : State) : (s.haltEnvironment).ocap = s.ocap := rfl
@[simp] theorem haltEnvironment_olen (s : State) : (s.haltEnvironment).olen = s.olen := rfl
@[simp] theorem haltEnvironment_cost (s : State) : (s.haltEnvironment).cost = s.cost := rfl
@[simp] theorem haltEnvironment_pwlen (s : State) : (s.haltEnvironment).pwlen = s.pwlen := rfl
@[simp] theorem haltEnvironment_rlen (s : State) : (s.haltEnvironment).rlen = s.rlen := rfl
@[simp] theorem haltEnvironment_mem (s : State) : (s.haltEnvironment).mem = s.mem := rfl
@[simp] theorem haltEnvironment_obufEpoch (s : State) : (s.haltEnvironment).obufEpoch = s.obufEpoch := rfl
@[simp] theorem haltEnvironment_routEpoch (s : State) : (s.haltEnvironment).routEpoch = s.routEpoch := rfl
@[simp] theorem haltEnvironment_resetEpoch (s : State) : (s.haltEnvironment).resetEpoch = s.resetEpoch := rfl
@[simp] theorem haltEnvironment_draws (s : State) : (s.haltEnvironment).draws = s.draws := rfl
@[simp] theorem haltEnvironment_calls (s : State) : (s.haltEnvironment).calls = s.calls := rfl
@[simp] theorem haltEnvironment_pending (s : State) : (s.haltEnvironment).pending = s.pending := rfl
@[simp] theorem haltEnvironment_readData (s : State) : (s.haltEnvironment).readData = s.readData := rfl

/-! ### `complete` (R250) -/

@[simp] theorem complete_seq (n : Nat) (s : State) : (s.complete n).seq = .done := rfl
@[simp] theorem complete_cmd (n : Nat) (s : State) : (s.complete n).cmd = s.cmd := rfl
@[simp] theorem complete_err (n : Nat) (s : State) : (s.complete n).err = .ok := rfl
@[simp] theorem complete_matchFlag (n : Nat) (s : State) : (s.complete n).matchFlag = s.matchFlag := rfl
@[simp] theorem complete_ilen (n : Nat) (s : State) : (s.complete n).ilen = s.ilen := rfl
@[simp] theorem complete_ocap (n : Nat) (s : State) : (s.complete n).ocap = s.ocap := rfl
@[simp] theorem complete_olen (n : Nat) (s : State) : (s.complete n).olen = BitVec.ofNat 32 n := rfl
@[simp] theorem complete_cost (n : Nat) (s : State) : (s.complete n).cost = s.cost := rfl
@[simp] theorem complete_pwlen (n : Nat) (s : State) : (s.complete n).pwlen = s.pwlen := rfl
@[simp] theorem complete_rlen (n : Nat) (s : State) : (s.complete n).rlen = s.rlen := rfl
@[simp] theorem complete_mem (n : Nat) (s : State) : (s.complete n).mem = s.mem := rfl
@[simp] theorem complete_obufEpoch (n : Nat) (s : State) : (s.complete n).obufEpoch = s.obufEpoch := rfl
@[simp] theorem complete_routEpoch (n : Nat) (s : State) : (s.complete n).routEpoch = s.routEpoch := rfl
@[simp] theorem complete_resetEpoch (n : Nat) (s : State) : (s.complete n).resetEpoch = s.resetEpoch := rfl
@[simp] theorem complete_draws (n : Nat) (s : State) : (s.complete n).draws = s.draws := rfl
@[simp] theorem complete_calls (n : Nat) (s : State) : (s.complete n).calls = s.calls := rfl
@[simp] theorem complete_pending (n : Nat) (s : State) : (s.complete n).pending = s.pending := rfl
@[simp] theorem complete_readData (n : Nat) (s : State) : (s.complete n).readData = s.readData := rfl

/-! ### `completeVerify` (R205) -/

@[simp] theorem completeVerify_seq (b : Bool) (s : State) : (s.completeVerify b).seq = .done := rfl
@[simp] theorem completeVerify_cmd (b : Bool) (s : State) : (s.completeVerify b).cmd = s.cmd := rfl
@[simp] theorem completeVerify_err (b : Bool) (s : State) : (s.completeVerify b).err = .ok := rfl
@[simp] theorem completeVerify_matchFlag (b : Bool) (s : State) : (s.completeVerify b).matchFlag = b := rfl
@[simp] theorem completeVerify_ilen (b : Bool) (s : State) : (s.completeVerify b).ilen = s.ilen := rfl
@[simp] theorem completeVerify_ocap (b : Bool) (s : State) : (s.completeVerify b).ocap = s.ocap := rfl
@[simp] theorem completeVerify_olen (b : Bool) (s : State) : (s.completeVerify b).olen = 0 := rfl
@[simp] theorem completeVerify_cost (b : Bool) (s : State) : (s.completeVerify b).cost = s.cost := rfl
@[simp] theorem completeVerify_pwlen (b : Bool) (s : State) : (s.completeVerify b).pwlen = s.pwlen := rfl
@[simp] theorem completeVerify_rlen (b : Bool) (s : State) : (s.completeVerify b).rlen = s.rlen := rfl
@[simp] theorem completeVerify_mem (b : Bool) (s : State) : (s.completeVerify b).mem = s.mem := rfl
@[simp] theorem completeVerify_obufEpoch (b : Bool) (s : State) : (s.completeVerify b).obufEpoch = s.obufEpoch := rfl
@[simp] theorem completeVerify_routEpoch (b : Bool) (s : State) : (s.completeVerify b).routEpoch = s.routEpoch := rfl
@[simp] theorem completeVerify_resetEpoch (b : Bool) (s : State) : (s.completeVerify b).resetEpoch = s.resetEpoch := rfl
@[simp] theorem completeVerify_draws (b : Bool) (s : State) : (s.completeVerify b).draws = s.draws := rfl
@[simp] theorem completeVerify_calls (b : Bool) (s : State) : (s.completeVerify b).calls = s.calls := rfl
@[simp] theorem completeVerify_pending (b : Bool) (s : State) : (s.completeVerify b).pending = s.pending := rfl
@[simp] theorem completeVerify_readData (b : Bool) (s : State) : (s.completeVerify b).readData = s.readData := rfl

/-! ### `storeBytes` (R75) -/

@[simp] theorem storeBytes_seq (off : Nat) (bytes : List Byte) (s : State) : (s.storeBytes off bytes).seq = s.seq := rfl
@[simp] theorem storeBytes_cmd (off : Nat) (bytes : List Byte) (s : State) : (s.storeBytes off bytes).cmd = s.cmd := rfl
@[simp] theorem storeBytes_err (off : Nat) (bytes : List Byte) (s : State) : (s.storeBytes off bytes).err = s.err := rfl
@[simp] theorem storeBytes_matchFlag (off : Nat) (bytes : List Byte) (s : State) : (s.storeBytes off bytes).matchFlag = s.matchFlag := rfl
@[simp] theorem storeBytes_ilen (off : Nat) (bytes : List Byte) (s : State) : (s.storeBytes off bytes).ilen = s.ilen := rfl
@[simp] theorem storeBytes_ocap (off : Nat) (bytes : List Byte) (s : State) : (s.storeBytes off bytes).ocap = s.ocap := rfl
@[simp] theorem storeBytes_olen (off : Nat) (bytes : List Byte) (s : State) : (s.storeBytes off bytes).olen = s.olen := rfl
@[simp] theorem storeBytes_cost (off : Nat) (bytes : List Byte) (s : State) : (s.storeBytes off bytes).cost = s.cost := rfl
@[simp] theorem storeBytes_pwlen (off : Nat) (bytes : List Byte) (s : State) : (s.storeBytes off bytes).pwlen = s.pwlen := rfl
@[simp] theorem storeBytes_rlen (off : Nat) (bytes : List Byte) (s : State) : (s.storeBytes off bytes).rlen = s.rlen := rfl
@[simp] theorem storeBytes_mem (off : Nat) (bytes : List Byte) (s : State) : (s.storeBytes off bytes).mem = Memory.writeAll s.mem off bytes := rfl
@[simp] theorem storeBytes_obufEpoch (off : Nat) (bytes : List Byte) (s : State) : (s.storeBytes off bytes).obufEpoch = s.obufEpoch := rfl
@[simp] theorem storeBytes_routEpoch (off : Nat) (bytes : List Byte) (s : State) : (s.storeBytes off bytes).routEpoch = s.routEpoch := rfl
@[simp] theorem storeBytes_resetEpoch (off : Nat) (bytes : List Byte) (s : State) : (s.storeBytes off bytes).resetEpoch = s.resetEpoch := rfl
@[simp] theorem storeBytes_draws (off : Nat) (bytes : List Byte) (s : State) : (s.storeBytes off bytes).draws = s.draws := rfl
@[simp] theorem storeBytes_calls (off : Nat) (bytes : List Byte) (s : State) : (s.storeBytes off bytes).calls = s.calls := rfl
@[simp] theorem storeBytes_pending (off : Nat) (bytes : List Byte) (s : State) : (s.storeBytes off bytes).pending = s.pending := rfl
@[simp] theorem storeBytes_readData (off : Nat) (bytes : List Byte) (s : State) : (s.storeBytes off bytes).readData = s.readData := rfl

/-! ### `storeResult` (R118) -/

@[simp] theorem storeResult_seq (b : OutBuf) (cap : Nat) (bytes : List Byte) (s : State) : (s.storeResult b cap bytes).seq = s.seq := rfl
@[simp] theorem storeResult_cmd (b : OutBuf) (cap : Nat) (bytes : List Byte) (s : State) : (s.storeResult b cap bytes).cmd = s.cmd := rfl
@[simp] theorem storeResult_err (b : OutBuf) (cap : Nat) (bytes : List Byte) (s : State) : (s.storeResult b cap bytes).err = s.err := rfl
@[simp] theorem storeResult_matchFlag (b : OutBuf) (cap : Nat) (bytes : List Byte) (s : State) : (s.storeResult b cap bytes).matchFlag = s.matchFlag := rfl
@[simp] theorem storeResult_ilen (b : OutBuf) (cap : Nat) (bytes : List Byte) (s : State) : (s.storeResult b cap bytes).ilen = s.ilen := rfl
@[simp] theorem storeResult_ocap (b : OutBuf) (cap : Nat) (bytes : List Byte) (s : State) : (s.storeResult b cap bytes).ocap = s.ocap := rfl
@[simp] theorem storeResult_olen (b : OutBuf) (cap : Nat) (bytes : List Byte) (s : State) : (s.storeResult b cap bytes).olen = s.olen := rfl
@[simp] theorem storeResult_cost (b : OutBuf) (cap : Nat) (bytes : List Byte) (s : State) : (s.storeResult b cap bytes).cost = s.cost := rfl
@[simp] theorem storeResult_pwlen (b : OutBuf) (cap : Nat) (bytes : List Byte) (s : State) : (s.storeResult b cap bytes).pwlen = s.pwlen := rfl
@[simp] theorem storeResult_rlen (b : OutBuf) (cap : Nat) (bytes : List Byte) (s : State) : (s.storeResult b cap bytes).rlen = s.rlen := rfl
@[simp] theorem storeResult_mem (b : OutBuf) (cap : Nat) (bytes : List Byte) (s : State) : (s.storeResult b cap bytes).mem = Memory.writeAll s.mem b.buf.base (zeroFill cap bytes) := rfl
@[simp] theorem storeResult_obufEpoch (b : OutBuf) (cap : Nat) (bytes : List Byte) (s : State) : (s.storeResult b cap bytes).obufEpoch = s.obufEpoch := rfl
@[simp] theorem storeResult_routEpoch (b : OutBuf) (cap : Nat) (bytes : List Byte) (s : State) : (s.storeResult b cap bytes).routEpoch = s.routEpoch := rfl
@[simp] theorem storeResult_resetEpoch (b : OutBuf) (cap : Nat) (bytes : List Byte) (s : State) : (s.storeResult b cap bytes).resetEpoch = s.resetEpoch := rfl
@[simp] theorem storeResult_draws (b : OutBuf) (cap : Nat) (bytes : List Byte) (s : State) : (s.storeResult b cap bytes).draws = s.draws := rfl
@[simp] theorem storeResult_calls (b : OutBuf) (cap : Nat) (bytes : List Byte) (s : State) : (s.storeResult b cap bytes).calls = s.calls := rfl
@[simp] theorem storeResult_pending (b : OutBuf) (cap : Nat) (bytes : List Byte) (s : State) : (s.storeResult b cap bytes).pending = s.pending := rfl
@[simp] theorem storeResult_readData (b : OutBuf) (cap : Nat) (bytes : List Byte) (s : State) : (s.storeResult b cap bytes).readData = s.readData := rfl

/-! ### `unspecify` (R246) -/

@[simp] theorem unspecify_seq (b : OutBuf) (s : State) : (s.unspecify b).seq = s.seq := by cases b <;> rfl
@[simp] theorem unspecify_cmd (b : OutBuf) (s : State) : (s.unspecify b).cmd = s.cmd := by cases b <;> rfl
@[simp] theorem unspecify_err (b : OutBuf) (s : State) : (s.unspecify b).err = s.err := by cases b <;> rfl
@[simp] theorem unspecify_matchFlag (b : OutBuf) (s : State) : (s.unspecify b).matchFlag = s.matchFlag := by cases b <;> rfl
@[simp] theorem unspecify_ilen (b : OutBuf) (s : State) : (s.unspecify b).ilen = s.ilen := by cases b <;> rfl
@[simp] theorem unspecify_ocap (b : OutBuf) (s : State) : (s.unspecify b).ocap = s.ocap := by cases b <;> rfl
@[simp] theorem unspecify_olen (b : OutBuf) (s : State) : (s.unspecify b).olen = s.olen := by cases b <;> rfl
@[simp] theorem unspecify_cost (b : OutBuf) (s : State) : (s.unspecify b).cost = s.cost := by cases b <;> rfl
@[simp] theorem unspecify_pwlen (b : OutBuf) (s : State) : (s.unspecify b).pwlen = s.pwlen := by cases b <;> rfl
@[simp] theorem unspecify_rlen (b : OutBuf) (s : State) : (s.unspecify b).rlen = s.rlen := by cases b <;> rfl
@[simp] theorem unspecify_mem (b : OutBuf) (s : State) : (s.unspecify b).mem = Memory.forget s.mem b.buf := by cases b <;> rfl
@[simp] theorem unspecify_obufEpoch (b : OutBuf) (s : State) : (s.unspecify b).obufEpoch = if b = .obuf then s.draws else s.obufEpoch := by cases b <;> rfl
@[simp] theorem unspecify_routEpoch (b : OutBuf) (s : State) : (s.unspecify b).routEpoch = if b = .rout then s.draws else s.routEpoch := by cases b <;> rfl
@[simp] theorem unspecify_resetEpoch (b : OutBuf) (s : State) : (s.unspecify b).resetEpoch = s.resetEpoch := by cases b <;> rfl
@[simp] theorem unspecify_draws (b : OutBuf) (s : State) : (s.unspecify b).draws = s.draws + 1 := by cases b <;> rfl
@[simp] theorem unspecify_calls (b : OutBuf) (s : State) : (s.unspecify b).calls = s.calls := by cases b <;> rfl
@[simp] theorem unspecify_pending (b : OutBuf) (s : State) : (s.unspecify b).pending = s.pending := by cases b <;> rfl
@[simp] theorem unspecify_readData (b : OutBuf) (s : State) : (s.unspecify b).readData = s.readData := by cases b <;> rfl

/-! ### `failWith` (R245, R246) -/

@[simp] theorem failWith_seq (b : OutBuf) (e : Err) (s : State) : (s.failWith b e).seq = .done := by cases b <;> rfl
@[simp] theorem failWith_cmd (b : OutBuf) (e : Err) (s : State) : (s.failWith b e).cmd = s.cmd := by cases b <;> rfl
@[simp] theorem failWith_err (b : OutBuf) (e : Err) (s : State) : (s.failWith b e).err = e := by cases b <;> rfl
@[simp] theorem failWith_matchFlag (b : OutBuf) (e : Err) (s : State) : (s.failWith b e).matchFlag = s.matchFlag := by cases b <;> rfl
@[simp] theorem failWith_ilen (b : OutBuf) (e : Err) (s : State) : (s.failWith b e).ilen = s.ilen := by cases b <;> rfl
@[simp] theorem failWith_ocap (b : OutBuf) (e : Err) (s : State) : (s.failWith b e).ocap = s.ocap := by cases b <;> rfl
@[simp] theorem failWith_olen (b : OutBuf) (e : Err) (s : State) : (s.failWith b e).olen = s.olen := by cases b <;> rfl
@[simp] theorem failWith_cost (b : OutBuf) (e : Err) (s : State) : (s.failWith b e).cost = s.cost := by cases b <;> rfl
@[simp] theorem failWith_pwlen (b : OutBuf) (e : Err) (s : State) : (s.failWith b e).pwlen = s.pwlen := by cases b <;> rfl
@[simp] theorem failWith_rlen (b : OutBuf) (e : Err) (s : State) : (s.failWith b e).rlen = s.rlen := by cases b <;> rfl
@[simp] theorem failWith_mem (b : OutBuf) (e : Err) (s : State) : (s.failWith b e).mem = Memory.forget s.mem b.buf := by cases b <;> rfl
@[simp] theorem failWith_obufEpoch (b : OutBuf) (e : Err) (s : State) : (s.failWith b e).obufEpoch = if b = .obuf then s.draws else s.obufEpoch := by cases b <;> rfl
@[simp] theorem failWith_routEpoch (b : OutBuf) (e : Err) (s : State) : (s.failWith b e).routEpoch = if b = .rout then s.draws else s.routEpoch := by cases b <;> rfl
@[simp] theorem failWith_resetEpoch (b : OutBuf) (e : Err) (s : State) : (s.failWith b e).resetEpoch = s.resetEpoch := by cases b <;> rfl
@[simp] theorem failWith_draws (b : OutBuf) (e : Err) (s : State) : (s.failWith b e).draws = s.draws + 1 := by cases b <;> rfl
@[simp] theorem failWith_calls (b : OutBuf) (e : Err) (s : State) : (s.failWith b e).calls = s.calls := by cases b <;> rfl
@[simp] theorem failWith_pending (b : OutBuf) (e : Err) (s : State) : (s.failWith b e).pending = s.pending := by cases b <;> rfl
@[simp] theorem failWith_readData (b : OutBuf) (e : Err) (s : State) : (s.failWith b e).readData = s.readData := by cases b <;> rfl

/-! ### `applyReset` (R270, R38) -/

@[simp] theorem applyReset_seq (s : State) : (s.applyReset).seq = .idle := rfl
@[simp] theorem applyReset_cmd (s : State) : (s.applyReset).cmd = 0 := rfl
@[simp] theorem applyReset_err (s : State) : (s.applyReset).err = .ok := rfl
@[simp] theorem applyReset_matchFlag (s : State) : (s.applyReset).matchFlag = false := rfl
@[simp] theorem applyReset_ilen (s : State) : (s.applyReset).ilen = 0 := rfl
@[simp] theorem applyReset_ocap (s : State) : (s.applyReset).ocap = 0 := rfl
@[simp] theorem applyReset_olen (s : State) : (s.applyReset).olen = 0 := rfl
@[simp] theorem applyReset_cost (s : State) : (s.applyReset).cost = 0 := rfl
@[simp] theorem applyReset_pwlen (s : State) : (s.applyReset).pwlen = 0 := rfl
@[simp] theorem applyReset_rlen (s : State) : (s.applyReset).rlen = 0 := rfl
@[simp] theorem applyReset_mem (s : State) : (s.applyReset).mem = [] := rfl
@[simp] theorem applyReset_obufEpoch (s : State) : (s.applyReset).obufEpoch = s.draws := rfl
@[simp] theorem applyReset_routEpoch (s : State) : (s.applyReset).routEpoch = s.draws := rfl
@[simp] theorem applyReset_resetEpoch (s : State) : (s.applyReset).resetEpoch = s.draws := rfl
@[simp] theorem applyReset_draws (s : State) : (s.applyReset).draws = s.draws + 1 := rfl
@[simp] theorem applyReset_calls (s : State) : (s.applyReset).calls = s.calls + 1 := rfl
@[simp] theorem applyReset_pending (s : State) : (s.applyReset).pending = s.pending := rfl
@[simp] theorem applyReset_readData (s : State) : (s.applyReset).readData = s.readData := rfl

/-! ### `returnRead` (R67) -/

@[simp] theorem returnRead_seq (v : Word) (s : State) : (s.returnRead v).seq = s.seq := rfl
@[simp] theorem returnRead_cmd (v : Word) (s : State) : (s.returnRead v).cmd = s.cmd := rfl
@[simp] theorem returnRead_err (v : Word) (s : State) : (s.returnRead v).err = s.err := rfl
@[simp] theorem returnRead_matchFlag (v : Word) (s : State) : (s.returnRead v).matchFlag = s.matchFlag := rfl
@[simp] theorem returnRead_ilen (v : Word) (s : State) : (s.returnRead v).ilen = s.ilen := rfl
@[simp] theorem returnRead_ocap (v : Word) (s : State) : (s.returnRead v).ocap = s.ocap := rfl
@[simp] theorem returnRead_olen (v : Word) (s : State) : (s.returnRead v).olen = s.olen := rfl
@[simp] theorem returnRead_cost (v : Word) (s : State) : (s.returnRead v).cost = s.cost := rfl
@[simp] theorem returnRead_pwlen (v : Word) (s : State) : (s.returnRead v).pwlen = s.pwlen := rfl
@[simp] theorem returnRead_rlen (v : Word) (s : State) : (s.returnRead v).rlen = s.rlen := rfl
@[simp] theorem returnRead_mem (v : Word) (s : State) : (s.returnRead v).mem = s.mem := rfl
@[simp] theorem returnRead_obufEpoch (v : Word) (s : State) : (s.returnRead v).obufEpoch = s.obufEpoch := rfl
@[simp] theorem returnRead_routEpoch (v : Word) (s : State) : (s.returnRead v).routEpoch = s.routEpoch := rfl
@[simp] theorem returnRead_resetEpoch (v : Word) (s : State) : (s.returnRead v).resetEpoch = s.resetEpoch := rfl
@[simp] theorem returnRead_draws (v : Word) (s : State) : (s.returnRead v).draws = s.draws := rfl
@[simp] theorem returnRead_calls (v : Word) (s : State) : (s.returnRead v).calls = s.calls := rfl
@[simp] theorem returnRead_pending (v : Word) (s : State) : (s.returnRead v).pending = s.pending := rfl
@[simp] theorem returnRead_readData (v : Word) (s : State) : (s.returnRead v).readData = v := rfl

/-! ### `returnFreeWord` (R73, R74) -/

@[simp] theorem returnFreeWord_seq (s : State) : (s.returnFreeWord).seq = s.seq := rfl
@[simp] theorem returnFreeWord_cmd (s : State) : (s.returnFreeWord).cmd = s.cmd := rfl
@[simp] theorem returnFreeWord_err (s : State) : (s.returnFreeWord).err = s.err := rfl
@[simp] theorem returnFreeWord_matchFlag (s : State) : (s.returnFreeWord).matchFlag = s.matchFlag := rfl
@[simp] theorem returnFreeWord_ilen (s : State) : (s.returnFreeWord).ilen = s.ilen := rfl
@[simp] theorem returnFreeWord_ocap (s : State) : (s.returnFreeWord).ocap = s.ocap := rfl
@[simp] theorem returnFreeWord_olen (s : State) : (s.returnFreeWord).olen = s.olen := rfl
@[simp] theorem returnFreeWord_cost (s : State) : (s.returnFreeWord).cost = s.cost := rfl
@[simp] theorem returnFreeWord_pwlen (s : State) : (s.returnFreeWord).pwlen = s.pwlen := rfl
@[simp] theorem returnFreeWord_rlen (s : State) : (s.returnFreeWord).rlen = s.rlen := rfl
@[simp] theorem returnFreeWord_mem (s : State) : (s.returnFreeWord).mem = s.mem := rfl
@[simp] theorem returnFreeWord_obufEpoch (s : State) : (s.returnFreeWord).obufEpoch = s.obufEpoch := rfl
@[simp] theorem returnFreeWord_routEpoch (s : State) : (s.returnFreeWord).routEpoch = s.routEpoch := rfl
@[simp] theorem returnFreeWord_resetEpoch (s : State) : (s.returnFreeWord).resetEpoch = s.resetEpoch := rfl
@[simp] theorem returnFreeWord_draws (s : State) : (s.returnFreeWord).draws = s.draws + 1 := rfl
@[simp] theorem returnFreeWord_calls (s : State) : (s.returnFreeWord).calls = s.calls := rfl
@[simp] theorem returnFreeWord_pending (s : State) : (s.returnFreeWord).pending = s.pending := rfl
@[simp] theorem returnFreeWord_readData (s : State) : (s.returnFreeWord).readData = Config.freeWord s.draws := rfl

/-! ### `returnFreeByte` (R73, R74) -/

@[simp] theorem returnFreeByte_seq (s : State) : (s.returnFreeByte).seq = s.seq := rfl
@[simp] theorem returnFreeByte_cmd (s : State) : (s.returnFreeByte).cmd = s.cmd := rfl
@[simp] theorem returnFreeByte_err (s : State) : (s.returnFreeByte).err = s.err := rfl
@[simp] theorem returnFreeByte_matchFlag (s : State) : (s.returnFreeByte).matchFlag = s.matchFlag := rfl
@[simp] theorem returnFreeByte_ilen (s : State) : (s.returnFreeByte).ilen = s.ilen := rfl
@[simp] theorem returnFreeByte_ocap (s : State) : (s.returnFreeByte).ocap = s.ocap := rfl
@[simp] theorem returnFreeByte_olen (s : State) : (s.returnFreeByte).olen = s.olen := rfl
@[simp] theorem returnFreeByte_cost (s : State) : (s.returnFreeByte).cost = s.cost := rfl
@[simp] theorem returnFreeByte_pwlen (s : State) : (s.returnFreeByte).pwlen = s.pwlen := rfl
@[simp] theorem returnFreeByte_rlen (s : State) : (s.returnFreeByte).rlen = s.rlen := rfl
@[simp] theorem returnFreeByte_mem (s : State) : (s.returnFreeByte).mem = s.mem := rfl
@[simp] theorem returnFreeByte_obufEpoch (s : State) : (s.returnFreeByte).obufEpoch = s.obufEpoch := rfl
@[simp] theorem returnFreeByte_routEpoch (s : State) : (s.returnFreeByte).routEpoch = s.routEpoch := rfl
@[simp] theorem returnFreeByte_resetEpoch (s : State) : (s.returnFreeByte).resetEpoch = s.resetEpoch := rfl
@[simp] theorem returnFreeByte_draws (s : State) : (s.returnFreeByte).draws = s.draws + 1 := rfl
@[simp] theorem returnFreeByte_calls (s : State) : (s.returnFreeByte).calls = s.calls := rfl
@[simp] theorem returnFreeByte_pending (s : State) : (s.returnFreeByte).pending = s.pending := rfl
@[simp] theorem returnFreeByte_readData (s : State) : (s.returnFreeByte).readData = ((Config.freeWord s.draws).setWidth 8).setWidth 32 := rfl

/-! ### `placeCommand` (R90) -/

@[simp] theorem placeCommand_seq (w : Word) (s : State) : (s.placeCommand w).seq = .busy := rfl
@[simp] theorem placeCommand_cmd (w : Word) (s : State) : (s.placeCommand w).cmd = w := rfl
@[simp] theorem placeCommand_err (w : Word) (s : State) : (s.placeCommand w).err = .ok := rfl
@[simp] theorem placeCommand_matchFlag (w : Word) (s : State) : (s.placeCommand w).matchFlag = false := rfl
@[simp] theorem placeCommand_ilen (w : Word) (s : State) : (s.placeCommand w).ilen = s.ilen := rfl
@[simp] theorem placeCommand_ocap (w : Word) (s : State) : (s.placeCommand w).ocap = s.ocap := rfl
@[simp] theorem placeCommand_olen (w : Word) (s : State) : (s.placeCommand w).olen = 0 := rfl
@[simp] theorem placeCommand_cost (w : Word) (s : State) : (s.placeCommand w).cost = s.cost := rfl
@[simp] theorem placeCommand_pwlen (w : Word) (s : State) : (s.placeCommand w).pwlen = s.pwlen := rfl
@[simp] theorem placeCommand_rlen (w : Word) (s : State) : (s.placeCommand w).rlen = s.rlen := rfl
@[simp] theorem placeCommand_mem (w : Word) (s : State) : (s.placeCommand w).mem = s.mem := rfl
@[simp] theorem placeCommand_obufEpoch (w : Word) (s : State) : (s.placeCommand w).obufEpoch = s.obufEpoch := rfl
@[simp] theorem placeCommand_routEpoch (w : Word) (s : State) : (s.placeCommand w).routEpoch = s.routEpoch := rfl
@[simp] theorem placeCommand_resetEpoch (w : Word) (s : State) : (s.placeCommand w).resetEpoch = s.resetEpoch := rfl
@[simp] theorem placeCommand_draws (w : Word) (s : State) : (s.placeCommand w).draws = s.draws := rfl
@[simp] theorem placeCommand_calls (w : Word) (s : State) : (s.placeCommand w).calls = s.calls := rfl
@[simp] theorem placeCommand_pending (w : Word) (s : State) : (s.placeCommand w).pending = deferFirst s.pending := rfl
@[simp] theorem placeCommand_readData (w : Word) (s : State) : (s.placeCommand w).readData = s.readData := rfl

/-! ### `callOver` (R227, R224) -/

@[simp] theorem callOver_seq (s : State) : (s.callOver).seq = s.seq := rfl
@[simp] theorem callOver_cmd (s : State) : (s.callOver).cmd = s.cmd := rfl
@[simp] theorem callOver_err (s : State) : (s.callOver).err = s.err := rfl
@[simp] theorem callOver_matchFlag (s : State) : (s.callOver).matchFlag = s.matchFlag := rfl
@[simp] theorem callOver_ilen (s : State) : (s.callOver).ilen = s.ilen := rfl
@[simp] theorem callOver_ocap (s : State) : (s.callOver).ocap = s.ocap := rfl
@[simp] theorem callOver_olen (s : State) : (s.callOver).olen = s.olen := rfl
@[simp] theorem callOver_cost (s : State) : (s.callOver).cost = s.cost := rfl
@[simp] theorem callOver_pwlen (s : State) : (s.callOver).pwlen = s.pwlen := rfl
@[simp] theorem callOver_rlen (s : State) : (s.callOver).rlen = s.rlen := rfl
@[simp] theorem callOver_mem (s : State) : (s.callOver).mem = s.mem := rfl
@[simp] theorem callOver_obufEpoch (s : State) : (s.callOver).obufEpoch = s.obufEpoch := rfl
@[simp] theorem callOver_routEpoch (s : State) : (s.callOver).routEpoch = s.routEpoch := rfl
@[simp] theorem callOver_resetEpoch (s : State) : (s.callOver).resetEpoch = s.resetEpoch := rfl
@[simp] theorem callOver_draws (s : State) : (s.callOver).draws = s.draws := rfl
@[simp] theorem callOver_calls (s : State) : (s.callOver).calls = s.calls + 1 := rfl
@[simp] theorem callOver_pending (s : State) : (s.callOver).pending = s.pending := rfl
@[simp] theorem callOver_readData (s : State) : (s.callOver).readData = s.readData := rfl


/-! ### `storeReg` (R21, R22, R66): a host write never reaches these -/

@[simp] theorem storeReg_mem (r : Reg) (v : Word) (s : State) : (s.storeReg r v).mem = s.mem := by
  cases r <;> rfl
@[simp] theorem storeReg_obufEpoch (r : Reg) (v : Word) (s : State) : (s.storeReg r v).obufEpoch = s.obufEpoch := by
  cases r <;> rfl
@[simp] theorem storeReg_routEpoch (r : Reg) (v : Word) (s : State) : (s.storeReg r v).routEpoch = s.routEpoch := by
  cases r <;> rfl
@[simp] theorem storeReg_resetEpoch (r : Reg) (v : Word) (s : State) : (s.storeReg r v).resetEpoch = s.resetEpoch := by
  cases r <;> rfl
@[simp] theorem storeReg_draws (r : Reg) (v : Word) (s : State) : (s.storeReg r v).draws = s.draws := by
  cases r <;> rfl
@[simp] theorem storeReg_calls (r : Reg) (v : Word) (s : State) : (s.storeReg r v).calls = s.calls := by
  cases r <;> rfl
@[simp] theorem storeReg_pending (r : Reg) (v : Word) (s : State) : (s.storeReg r v).pending = s.pending := by
  cases r <;> rfl
@[simp] theorem storeReg_readData (r : Reg) (v : Word) (s : State) : (s.storeReg r v).readData = s.readData := by
  cases r <;> rfl
@[simp] theorem storeReg_ilen (r : Reg) (v : Word) (s : State) : (s.storeReg r v).ilen = if r = .ilen then v else s.ilen := by
  cases r <;> rfl
@[simp] theorem storeReg_ocap (r : Reg) (v : Word) (s : State) : (s.storeReg r v).ocap = if r = .ocap then v else s.ocap := by
  cases r <;> rfl
@[simp] theorem storeReg_cost (r : Reg) (v : Word) (s : State) : (s.storeReg r v).cost = if r = .cost then v else s.cost := by
  cases r <;> rfl
@[simp] theorem storeReg_pwlen (r : Reg) (v : Word) (s : State) : (s.storeReg r v).pwlen = if r = .pwlen then v else s.pwlen := by
  cases r <;> rfl
@[simp] theorem storeReg_rlen (r : Reg) (v : Word) (s : State) : (s.storeReg r v).rlen = if r = .rlen then v else s.rlen := by
  cases r <;> rfl

end Sys2Proof.Machine.State
end

