-- ==== Sys2Proof/Laws/Memory.lean ====
section
/-! SUPPORT. What the memory operations do, said once: reads after writes, the canonical form, and the byte
a location of the state holds after each shared operation. -/

namespace Sys2Proof.Machine

/-! ### Finding after an operation -/

theorem Memory.find_write (m : Memory) (a : Nat) (v : Byte) (b : Nat) :
    Memory.find (Memory.write m a v) b = if b = a then some v else Memory.find m b := by
  induction m with
  | nil => simp only [Memory.write, Memory.find, eq_comm]
  | cons c rest ih =>
    unfold Memory.write
    split
    · simp only [Memory.find, eq_comm]
    · split
      · next h1 h2 =>
        subst h2
        by_cases h : c.1 = b <;> simp [Memory.find, h, Ne.symm]
      · next h1 h2 =>
        by_cases h : c.1 = b
        · have : b ≠ a := fun e => h2 (by rw [h, e])
          simp [Memory.find, h, this]
        · simp [Memory.find, h, ih]

theorem Memory.find_writeAll (bytes : List Byte) (m : Memory) (a b : Nat) :
    Memory.find (Memory.writeAll m a bytes) b
      = if a ≤ b ∧ b < a + bytes.length then bytes[b - a]? else Memory.find m b := by
  induction bytes generalizing m a with
  | nil => simp only [Memory.writeAll, List.length_nil]; split <;> [omega; rfl]
  | cons x xs ih =>
    simp only [Memory.writeAll, ih, Memory.find_write, List.length_cons]
    by_cases h1 : a = b
    · subst h1; simp
    · by_cases h2 : a + 1 ≤ b ∧ b < a + 1 + xs.length
      · have h3 : a ≤ b ∧ b < a + (xs.length + 1) := by omega
        have h4 : b - a = (b - (a + 1)) + 1 := by omega
        simp [h2, h3, h4]
      · have h3 : ¬(a ≤ b ∧ b < a + (xs.length + 1)) := by omega
        rw [if_neg h2, if_neg h3, if_neg (Ne.symm h1)]

theorem Memory.find_forget (m : Memory) (b : Buf) (off : Nat) :
    Memory.find (Memory.forget m b) off = if b.has off then none else Memory.find m off := by
  induction m with
  | nil => simp [Memory.forget, Memory.find]
  | cons c rest ih =>
    unfold Memory.forget at ih ⊢
    by_cases h : c.1 = off
    · subst h; by_cases hb : b.has c.1 <;> simp_all [Memory.find]
    · by_cases hb : b.has c.1 <;> simp_all [Memory.find]

/-! ### The canonical form is kept -/

theorem Memory.mem_write {m : Memory} {a : Nat} {v : Byte} {c : Host.Cell}
    (h : c ∈ Memory.write m a v) : c = (a, v) ∨ c ∈ m := by
  induction m with
  | nil => simpa [Memory.write] using h
  | cons d rest ih =>
    unfold Memory.write at h
    split at h
    · simpa using h
    · split at h
      · simp at h ⊢; tauto
      · simp at h ⊢; rcases h with h | h
        · exact .inr (.inl h)
        · rcases ih h with h | h <;> tauto

theorem Memory.wf_nil : Memory.wf [] := by simp [Memory.wf]

theorem Memory.wf_write {m : Memory} {a : Nat} {v : Byte} (hm : Memory.wf m) (ha : (bufAt a).isSome) :
    Memory.wf (Memory.write m a v) := by
  refine ⟨?_, fun c hc => ?_⟩
  · obtain ⟨hp, -⟩ := hm
    induction m with
    | nil => simp [Memory.write]
    | cons d rest ih =>
      rw [List.pairwise_cons] at hp
      unfold Memory.write
      split
      · next h =>
        rw [List.pairwise_cons]
        refine ⟨fun c hc => ?_, List.pairwise_cons.mpr hp⟩
        rcases List.mem_cons.mp hc with rfl | hc
        · exact h
        · exact Nat.lt_trans h (hp.1 c hc)
      · split
        · next h => exact List.pairwise_cons.mpr ⟨fun c hc => h ▸ hp.1 c hc, hp.2⟩
        · next h1 h2 =>
          refine List.pairwise_cons.mpr ⟨fun c hc => ?_, ih hp.2⟩
          rcases Memory.mem_write hc with rfl | hc
          · show d.1 < a; omega
          · exact hp.1 c hc
  · rcases Memory.mem_write hc with rfl | hc
    · exact ha
    · exact hm.2 c hc

theorem Memory.wf_writeAll {bytes : List Byte} {m : Memory} {a : Nat} (hm : Memory.wf m)
    (ha : ∀ i < bytes.length, (bufAt (a + i)).isSome) : Memory.wf (Memory.writeAll m a bytes) := by
  induction bytes generalizing m a with
  | nil => exact hm
  | cons x xs ih =>
    refine ih (Memory.wf_write hm (ha 0 (by simp))) fun i hi => ?_
    have := ha (i + 1) (by simpa using hi)
    rwa [show a + 1 + i = a + (i + 1) by omega]

theorem Memory.wf_forget {m : Memory} (b : Buf) (hm : Memory.wf m) : Memory.wf (Memory.forget m b) :=
  ⟨hm.1.filter _, fun c hc => hm.2 c (List.mem_of_mem_filter hc)⟩

/-! ### The address map (R61), in numbers -/

@[simp] theorem base_tbl : Buf.base .tbl = 64 := rfl
@[simp] theorem size_tbl : Buf.size .tbl = 65 := rfl
@[simp] theorem base_rin : Buf.base .rin = 192 := rfl
@[simp] theorem size_rin : Buf.size .rin = 64 := rfl
@[simp] theorem base_rout : Buf.base .rout = 256 := rfl
@[simp] theorem size_rout : Buf.size .rout = 64 := rfl
@[simp] theorem base_pwbuf : Buf.base .pwbuf = 512 := rfl
@[simp] theorem size_pwbuf : Buf.size .pwbuf = 256 := rfl
@[simp] theorem base_ibuf : Buf.base .ibuf = 4096 := rfl
@[simp] theorem size_ibuf : Buf.size .ibuf = 4096 := rfl
@[simp] theorem base_obuf : Buf.base .obuf = 8192 := rfl
@[simp] theorem size_obuf : Buf.size .obuf = 4096 := rfl
@[simp] theorem buf_obuf : OutBuf.buf .obuf = .obuf := rfl
@[simp] theorem buf_rout : OutBuf.buf .rout = .rout := rfl

theorem has_iff (b : Buf) (off : Nat) : b.has off = true ↔ b.base ≤ off ∧ off < b.base + b.size := by
  simp [Buf.has]

theorem has_eq_false_iff (b : Buf) (off : Nat) :
    b.has off = false ↔ ¬(b.base ≤ off ∧ off < b.base + b.size) := by
  rw [← has_iff, Bool.not_eq_true]

/-- No byte belongs to two buffers (R40). -/
theorem has_unique {b c : Buf} {off : Nat} (hb : b.has off) (hc : c.has off) : b = c := by
  rw [has_iff] at hb hc
  cases b <;> cases c <;> first | rfl | (simp at hb hc; omega)

theorem has_of_bufAt {b : Buf} {off : Nat} (h : bufAt off = some b) : b.has off := by
  unfold bufAt at h
  repeat' (split at h; · cases h; assumption)
  cases h

theorem bufAt_of_has {b : Buf} {off : Nat} (h : b.has off) : bufAt off = some b := by
  cases hc : bufAt off with
  | some c => rw [has_unique (has_of_bufAt hc) h]
  | none =>
    unfold bufAt at hc
    repeat' (split at hc; · cases hc)
    cases b <;> contradiction

theorem bufAt_eq_some (b : Buf) (off : Nat) : bufAt off = some b ↔ b.has off :=
  ⟨has_of_bufAt, bufAt_of_has⟩

/-! ### The bytes a state holds after each shared operation -/

namespace State

/-- The bytes of a state depend on its memory and its epochs alone. -/
theorem byteAt_congr {s t : State} (hm : t.mem = s.mem) (ho : t.obufEpoch = s.obufEpoch)
    (hr : t.routEpoch = s.routEpoch) (he : t.resetEpoch = s.resetEpoch) (off : Nat) :
    t.byteAt off = s.byteAt off := by
  simp [byteAt, epochAt, hm, ho, hr, he]

@[simp] theorem byteAt_accept (w : Word) (s : State) (off : Nat) : (s.accept w).byteAt off = s.byteAt off := rfl
@[simp] theorem byteAt_raiseError (e : Err) (s : State) (off : Nat) :
    (s.raiseError e).byteAt off = s.byteAt off := rfl
@[simp] theorem byteAt_haltEnvironment (s : State) (off : Nat) : s.haltEnvironment.byteAt off = s.byteAt off := rfl
@[simp] theorem byteAt_complete (n : Nat) (s : State) (off : Nat) : (s.complete n).byteAt off = s.byteAt off := rfl
@[simp] theorem byteAt_completeVerify (b : Bool) (s : State) (off : Nat) :
    (s.completeVerify b).byteAt off = s.byteAt off := rfl
@[simp] theorem byteAt_callOver (s : State) (off : Nat) : s.callOver.byteAt off = s.byteAt off := rfl
@[simp] theorem byteAt_placeCommand (w : Word) (s : State) (off : Nat) :
    (s.placeCommand w).byteAt off = s.byteAt off := rfl

theorem byteAt_storeBytes (off : Nat) (bytes : List Byte) (s : State) (a : Nat) :
    (s.storeBytes off bytes).byteAt a
      = if off ≤ a ∧ a < off + bytes.length then bytes.getD (a - off) 0 else s.byteAt a := by
  unfold byteAt
  simp only [storeBytes_mem, Memory.find_writeAll]
  split
  · next h =>
    have : a - off < bytes.length := by omega
    simp [List.getD, this]
  · rfl

/-- Outside the written bytes nothing changes. -/
theorem byteAt_storeBytes_outside {off a : Nat} {bytes : List Byte} {s : State}
    (h : ¬(off ≤ a ∧ a < off + bytes.length)) : (s.storeBytes off bytes).byteAt a = s.byteAt a := by
  rw [byteAt_storeBytes, if_neg h]

theorem byteAt_unspecify_outside {b : OutBuf} {s : State} {off : Nat} (h : b.buf.has off = false) :
    (s.unspecify b).byteAt off = s.byteAt off := by
  cases b <;> simp_all [byteAt, Memory.find_forget, epochAt, OutBuf.buf]

theorem byteAt_failWith_outside {b : OutBuf} {e : Err} {s : State} {off : Nat} (h : b.buf.has off = false) :
    (s.failWith b e).byteAt off = s.byteAt off := byteAt_unspecify_outside h

/-- Reads of one byte decide reads of many. -/
theorem readBytes_congr {s t : State} {off n : Nat} (h : ∀ i < n, t.byteAt (off + i) = s.byteAt (off + i)) :
    t.readBytes off n = s.readBytes off n := by
  induction n generalizing off with
  | zero => rfl
  | succ n ih =>
    simp only [readBytes]
    rw [show t.byteAt off = s.byteAt off from h 0 (by omega),
      ih fun i hi => by rw [show off + 1 + i = off + (i + 1) by omega]; exact h (i + 1) (by omega)]

@[simp] theorem readBytes_length (s : State) (off n : Nat) : (s.readBytes off n).length = n := by
  induction n generalizing off with
  | zero => rfl
  | succ n ih => simp [readBytes, ih]

theorem readBytes_getD (s : State) (off n i : Nat) (h : i < n) :
    (s.readBytes off n).getD i 0 = s.byteAt (off + i) := by
  induction n generalizing off i with
  | zero => omega
  | succ n ih =>
    cases i with
    | zero => rfl
    | succ i =>
      have := ih (off + 1) i (by omega)
      simp only [readBytes, List.getD_cons_succ, this]
      congr 1; omega

end State

/-! ### Results -/

theorem zeroFill_length (cap : Nat) (bytes : List Byte) (h : bytes.length ≤ cap) :
    (zeroFill cap bytes).length = cap := by
  simp [zeroFill]; omega

theorem zeroFill_getD (cap i : Nat) (bytes : List Byte) :
    (zeroFill cap bytes).getD i 0 = bytes.getD i 0 := by
  by_cases h : i < bytes.length
  · simp [zeroFill, List.getD, List.getElem?_append, h]
  · simp only [zeroFill, List.getD, List.getElem?_append, h, if_false, List.getElem?_replicate]
    split <;> simp_all

/-- The area a result is stored to: the result, then zeros; outside it nothing changes. -/
theorem State.byteAt_storeResult {b : OutBuf} {cap : Nat} {bytes : List Byte} (s : State) (off : Nat)
    (h : bytes.length ≤ cap) :
    (s.storeResult b cap bytes).byteAt off
      = if b.buf.base ≤ off ∧ off < b.buf.base + cap then bytes.getD (off - b.buf.base) 0 else s.byteAt off := by
  rw [State.storeResult, State.byteAt_storeBytes, zeroFill_length cap bytes h, zeroFill_getD]

/-- What was stored reads back. -/
theorem State.readBytes_storeBytes (off : Nat) (bytes : List Byte) (s : State) :
    (s.storeBytes off bytes).readBytes off bytes.length = bytes := by
  apply List.ext_getElem
  · simp
  · intro j h1 h2
    rw [← List.getD_eq_getElem _ 0 h1, ← List.getD_eq_getElem _ 0 h2, State.readBytes_getD _ _ _ _ h2,
      State.byteAt_storeBytes, if_pos (by omega), show off + j - off = j by omega]

/-- A stored result reads back, zero-filled. -/
theorem State.readBytes_storeResult {b : OutBuf} {cap : Nat} {bytes : List Byte} (s : State)
    (h : bytes.length ≤ cap) : (s.storeResult b cap bytes).readBytes b.buf.base cap = zeroFill cap bytes := by
  have := State.readBytes_storeBytes b.buf.base (zeroFill cap bytes) s
  rwa [zeroFill_length cap bytes h] at this

theorem State.readBytes_complete (s : State) (n off k : Nat) :
    (s.complete n).readBytes off k = s.readBytes off k :=
  State.readBytes_congr fun _ _ => by simp

theorem Memory.wf_storeResult {b : OutBuf} {cap : Nat} {bytes : List Byte} {s : State} (hm : Memory.wf s.mem)
    (h : bytes.length ≤ cap) (hc : cap ≤ b.buf.size) : Memory.wf (s.storeResult b cap bytes).mem := by
  rw [State.storeResult_mem]
  refine Memory.wf_writeAll hm fun i hi => ?_
  rw [zeroFill_length cap bytes h] at hi
  have : b.buf.has (b.buf.base + i) := (has_iff _ _).2 ⟨by omega, by omega⟩
  rw [bufAt_of_has this]; rfl

end Sys2Proof.Machine
end

