-- ==== Sys2Proof/Laws/Codec.lean ====
section
/-! SUPPORT. Laws of the pure functions: packing and unpacking, lengths of encodings and records, and what a record that parses is. -/

namespace Sys2Proof.Machine

/-! ### Packing and unpacking -/

/-- The four indices of a group make it up (R115, R149). -/
theorem packIndices_idx (v : Group) : packIndices (idx0 v) (idx1 v) (idx2 v) (idx3 v) = v := by
  apply BitVec.eq_of_getLsbD_eq
  intro i hi
  simp only [packIndices, idx0, idx1, idx2, idx3, BitVec.getLsbD_append, BitVec.getLsbD_extractLsb']
  split
  · simp [*]
  · split
    · rw [show 6 + (i - 6) = i by omega]; simp [*]
    · split
      · rw [show 12 + (i - 6 - 6) = i by omega]; simp [*]
      · rw [show 18 + (i - 6 - 6 - 6) = i by omega]
        have : i - 6 - 6 - 6 < 6 := by omega
        simp [this]

theorem byte0_packBytes (b0 b1 b2 : Byte) : byte0 (packBytes b0 b1 b2) = b0 := by
  apply BitVec.eq_of_getLsbD_eq
  intro i hi
  simp only [byte0, packBytes, BitVec.getLsbD_append, BitVec.getLsbD_extractLsb']
  rw [if_neg (by omega), if_neg (by omega), show 16 + i - 8 - 8 = i by omega]; simp [hi]

theorem byte1_packBytes (b0 b1 b2 : Byte) : byte1 (packBytes b0 b1 b2) = b1 := by
  apply BitVec.eq_of_getLsbD_eq
  intro i hi
  simp only [byte1, packBytes, BitVec.getLsbD_append, BitVec.getLsbD_extractLsb']
  rw [if_neg (by omega), if_pos (by omega), show 8 + i - 8 = i by omega]; simp [hi]

theorem byte2_packBytes (b0 b1 b2 : Byte) : byte2 (packBytes b0 b1 b2) = b2 := by
  apply BitVec.eq_of_getLsbD_eq
  intro i hi
  simp only [byte2, packBytes, BitVec.getLsbD_append, BitVec.getLsbD_extractLsb']
  rw [if_pos (by omega)]; simp [hi]

/-- The index bits no input byte supplies are zero (R120). -/
theorem idx3_packBytes_zero (b0 b1 : Byte) : idx3 (packBytes b0 b1 0) = 0 := by
  apply BitVec.eq_of_getLsbD_eq
  intro i hi
  simp only [idx3, packBytes, BitVec.getLsbD_append, BitVec.getLsbD_extractLsb']
  rw [if_pos (by omega)]; simp

theorem idx2_packBytes_zero (b0 : Byte) : idx2 (packBytes b0 0 0) = 0 := by
  apply BitVec.eq_of_getLsbD_eq
  intro i hi
  simp only [idx2, packBytes, BitVec.getLsbD_append, BitVec.getLsbD_extractLsb']
  split
  · simp
  · rw [if_pos (by omega)]; simp

/-- Unpacking what a group was packed into gives its bytes back. -/
theorem unpack_group (b0 b1 b2 : Byte) (rest : List SymIndex) :
    unpack (idx0 (packBytes b0 b1 b2) :: idx1 (packBytes b0 b1 b2) :: idx2 (packBytes b0 b1 b2)
      :: idx3 (packBytes b0 b1 b2) :: rest) = b0 :: b1 :: b2 :: unpack rest := by
  simp only [unpack, packIndices_idx, byte0_packBytes, byte1_packBytes, byte2_packBytes]; rfl

theorem unpack_two (b0 b1 : Byte) :
    unpack [idx0 (packBytes b0 b1 0), idx1 (packBytes b0 b1 0), idx2 (packBytes b0 b1 0)] = [b0, b1] := by
  have := packIndices_idx (packBytes b0 b1 0)
  rw [idx3_packBytes_zero] at this
  simp only [unpack, this, byte0_packBytes, byte1_packBytes]

theorem unpack_one (b0 : Byte) : unpack [idx0 (packBytes b0 0 0), idx1 (packBytes b0 0 0)] = [b0] := by
  have := packIndices_idx (packBytes b0 0 0)
  rw [idx3_packBytes_zero, idx2_packBytes_zero] at this
  simp only [unpack, this, byte0_packBytes]

/-! ### Lengths -/

theorem padding_length_le (T : Table) (n : Nat) : (padding T n).length ≤ n := by
  unfold padding; split <;> simp

/-- A text never exceeds the padded length (R112, R118). -/
theorem enc_length_le (T : Table) (b : List Byte) : (enc T b).length ≤ encLenPadded b.length := by
  induction b using enc.induct with
  | case1 => simp [enc]
  | case2 b0 => have := padding_length_le T 2; simp [enc, encLenPadded]; omega
  | case3 b0 b1 => have := padding_length_le T 1; simp [enc, encLenPadded]; omega
  | case4 b0 b1 b2 rest ih => simp only [enc, List.length_append, List.length_cons] at ih ⊢; simp [encLenPadded] at ih ⊢; omega

/-- The length of a text without padding. -/
theorem enc_length_unpadded {T : Table} (h : padOf T = 0) (b : List Byte) :
    (enc T b).length = b.length / 3 * 4 + (if b.length % 3 = 0 then 0 else b.length % 3 + 1) := by
  induction b using enc.induct with
  | case1 => simp [enc]
  | case2 b0 => simp [enc, padding, h]
  | case3 b0 b1 => simp [enc, padding, h]
  | case4 b0 b1 b2 rest ih =>
    simp only [enc, List.length_append, List.length_cons, List.length_nil, ih]
    have h3 : (rest.length + 1 + 1 + 1) % 3 = rest.length % 3 := by omega
    rw [h3]; omega

@[simp] theorem padOf_dtbl : padOf dtbl = 0x3D := by decide
@[simp] theorem padOf_btbl : padOf btbl = 0 := by decide

/-- The salt field is 22 symbols (R99). -/
theorem enc_salt_length (x : Salt) : (enc btbl x.toList).length = 22 := by
  rw [enc_length_unpadded (by simp)]; simp

theorem saltRecord_length (c : Nat) (x : Salt) : (saltRecord c x).length = 28 := by
  simp [saltRecord, costDigits, enc_salt_length]

theorem hashCore_length_le {σ : Type} (C : Cipher σ) (pw : List Byte) (m : Bool) (c : Nat) (salt : List Byte) :
    (hashCore C pw m c salt).length ≤ 32 := by
  refine Nat.le_trans (enc_length_le _ _) ?_
  simp [encLenPadded, List.length_take]

/-- No text in the salt alphabet holds a 0x00 (R29, R117): what was encoded is a text (R10). -/
theorem symAt_btbl_ne_zero (i : SymIndex) : symAt btbl i.toNat ≠ 0 := by revert i; decide

theorem enc_btbl_ne_zero {b : List Byte} {c : Byte} (h : c ∈ enc btbl b) : c ≠ 0 := by
  induction b using enc.induct with
  | case1 => simp [enc] at h
  | case2 b0 =>
    simp only [enc, padding, padOf_btbl, ne_eq, not_true, if_false, List.append_nil, List.mem_cons,
      List.not_mem_nil, or_false] at h
    rcases h with rfl | rfl <;> exact symAt_btbl_ne_zero _
  | case3 b0 b1 =>
    simp only [enc, padding, padOf_btbl, ne_eq, not_true, if_false, List.append_nil, List.mem_cons,
      List.not_mem_nil, or_false] at h
    rcases h with rfl | rfl | rfl <;> exact symAt_btbl_ne_zero _
  | case4 b0 b1 b2 rest ih =>
    simp only [enc, List.mem_append, List.mem_cons, List.not_mem_nil, or_false] at h
    rcases h with (rfl | rfl | rfl | rfl) | h
    · exact symAt_btbl_ne_zero _
    · exact symAt_btbl_ne_zero _
    · exact symAt_btbl_ne_zero _
    · exact symAt_btbl_ne_zero _
    · exact ih h

/-! ### What a record that parses is -/

theorem parseMinor_some {t : List Byte} {m : Bool} {p : Nat} (h : parseMinor t = some (m, p)) :
    (m = false ∧ p = 6 ∧ textAt t 2 = dollar) ∨
      (m = true ∧ p = 7 ∧ textAt t 2 = minorChar ∧ textAt t 3 = dollar) := by
  unfold parseMinor at h
  split at h
  · next h2 => cases h; exact .inl ⟨rfl, rfl, h2⟩
  · split at h
    · next h2 => cases h; exact .inr ⟨rfl, rfl, h2⟩
    · cases h

/-- Everything a successful parse says (R180 to R185), in the parser's own terms. -/
theorem parseRecord_some {t : List Byte} {tail : Nat} {x : Parsed} (h : parseRecord t tail = some x) :
    textAt t 0 = dollar ∧ (textAt t 1).toNat ≤ Config.version.toNat ∧
      parseMinor t = some (x.minor, x.saltAt) ∧ parseCost t x.saltAt = some x.cost ∧
      t.length = x.saltAt + tail ∧ dec btbl ((t.drop x.saltAt).take Config.saltSyms) = some x.salt := by
  unfold parseRecord at h
  split at h
  · cases h
  · next h0 =>
    push Not at h0
    split at h
    · cases h
    · next m p hm =>
      split at h
      · cases h
      · next c hc =>
        split at h
        · cases h
        · next hl =>
          split at h
          · cases h
          · next sl hs =>
            cases h
            exact ⟨h0.1, h0.2, hm, hc, Decidable.not_not.mp hl, hs⟩

theorem parseRecord_saltAt_le {t : List Byte} {tail : Nat} {x : Parsed} (h : parseRecord t tail = some x) :
    x.saltAt ≤ 7 := by
  rcases parseMinor_some (parseRecord_some h).2.2.1 with h | h <;> omega

/-- A hash record fits ROUT (R33, R195). -/
theorem hashRecord_length_le {σ : Type} (C : Cipher σ) (pw t : List Byte) {x : Parsed} {tail : Nat}
    (h : parseRecord t tail = some x) : (hashRecord C pw t x).length ≤ 61 := by
  have h1 := parseRecord_saltAt_le h
  have h2 := hashCore_length_le C pw x.minor x.cost x.salt
  simp only [hashRecord, List.length_append, List.length_take, Config.saltSyms_val]; omega

end Sys2Proof.Machine
end

