-- ==== Sys2Proof/Laws/Commands.lean ====
section
/-! SUPPORT. What each meaning, a host action and a step can do, said once: later proofs cite these and do
not unfold the meanings again. -/

namespace Sys2Proof.Machine

/-! ### Conditions on operands -/

namespace State

theorem codecOperandsOk_iff (s : State) :
    s.codecOperandsOk = true ↔ s.ilen.toNat ≤ Config.ibufSize ∧ s.ocap.toNat ≤ Config.obufSize := by
  rw [codecOperandsOk, Bool.and_eq_true, decide_eq_true_iff, decide_eq_true_iff]

theorem costOk_iff (s : State) : s.costOk = true ↔ s.cost.toNat ≤ Config.costMax :=
  decide_eq_true_iff

theorem recordOperandsOk_iff (s : State) :
    s.recordOperandsOk = true ↔ s.pwlen.toNat ≤ Config.pwMax ∧ s.rlen.toNat ≤ Config.recordMax := by
  rw [recordOperandsOk, Bool.and_eq_true, decide_eq_true_iff, decide_eq_true_iff]

theorem inputBytes_length (s : State) : s.inputBytes.length = s.ilen.toNat := by simp [inputBytes]

end State

/-! ### The arms of `exec` -/

theorem exec_encodeD (s : State) : exec .encodeD s = execEncodeD s := rfl
theorem exec_encodeA (s : State) : exec .encodeA s = execEncodeA s := rfl
theorem exec_decodeD (s : State) : exec .decodeD s = execDecodeD s := rfl
theorem exec_decodeA (s : State) : exec .decodeA s = execDecodeA s := rfl
theorem exec_genSalt (s : State) : exec .genSalt s = execGenSalt s := rfl
theorem exec_hash (s : State) : exec .hash s = execHash s := rfl
theorem exec_verify (s : State) : exec .verify s = execVerify s := rfl

/-! ### How a command can end -/

/-- The ways a codec command can end in a next state. -/
inductive CodecEnd (s : State) : State → Prop where
  | failed (e : Err) (h : e = .capacity ∨ e = .format ∨ e = .illegal) : CodecEnd s (s.failWith .obuf e)
  | succeeded (bytes : List Byte) (h : bytes.length ≤ s.ocap.toNat) (hc : s.ocap.toNat ≤ Config.obufSize) :
      CodecEnd s ((s.storeResult .obuf s.ocap.toNat bytes).complete bytes.length)

theorem encodeWith_end {T : Table} {s t : State} (ho : s.codecOperandsOk = true) (h : encodeWith T s = .next t) :
    CodecEnd s t := by
  unfold encodeWith at h
  split at h
  · cases h; exact .failed _ (.inl rfl)
  · next hc =>
    cases h
    refine .succeeded _ ?_ ((State.codecOperandsOk_iff s).1 ho).2
    have := enc_length_le T s.inputBytes
    rw [State.inputBytes_length] at this; omega

theorem decodeWith_end {T : Table} {s t : State} (ho : s.codecOperandsOk = true) (h : decodeWith T s = .next t) :
    CodecEnd s t := by
  unfold decodeWith at h
  split at h
  · cases h; exact .failed _ (.inr (.inl rfl))
  · split at h
    · cases h; exact .failed _ (.inl rfl)
    · next hc => cases h; exact .succeeded _ (by omega) ((State.codecOperandsOk_iff s).1 ho).2

/-- The four codec commands end as `CodecEnd` says. -/
theorem execCodec_end {i : Instr} {s t : State}
    (hi : i = .encodeD ∨ i = .encodeA ∨ i = .decodeD ∨ i = .decodeA) (h : exec i s = .next t) : CodecEnd s t := by
  rcases hi with rfl | rfl | rfl | rfl
  · rw [exec_encodeD, execEncodeD] at h
    split at h
    · exact encodeWith_end ‹_› h
    · cases h; exact .failed _ (.inr (.inr rfl))
  · rw [exec_encodeA, execEncodeA] at h
    split at h
    · split at h
      · exact encodeWith_end ‹_› h
      · cases h
    · cases h; exact .failed _ (.inr (.inr rfl))
  · rw [exec_decodeD, execDecodeD] at h
    split at h
    · exact decodeWith_end ‹_› h
    · cases h; exact .failed _ (.inr (.inr rfl))
  · rw [exec_decodeA, execDecodeA] at h
    split at h
    · split at h
      · exact decodeWith_end ‹_› h
      · cases h
    · cases h; exact .failed _ (.inr (.inr rfl))

/-- The ways GENSALT can end in a next state. -/
inductive GenSaltEnd (s : State) : State → Prop where
  | failed : GenSaltEnd s (s.failWith .rout .illegal)
  | wrote (salt : Salt) (h : s.drawAnswer = .bytes salt) :
      GenSaltEnd s (writeRecord (saltRecord (clampCost s.cost.toNat) salt) s.callOver)
  | halts (h : s.drawAnswer = .unavailable) : GenSaltEnd s (s.callOver.unspecify .rout).haltEnvironment
  | waits (h : s.drawAnswer = .never) : GenSaltEnd s s

theorem execGenSalt_end {s t : State} (h : exec .genSalt s = .next t) : GenSaltEnd s t := by
  rw [exec_genSalt, execGenSalt] at h
  split at h <;> cases h
  · unfold genSaltAnswered
    split
    · exact .wrote _ ‹_›
    · exact .halts ‹_›
    · exact .waits ‹_›
  · exact .failed

/-- Past its operand check GENSALT always answers a next state, the one its draw decides. -/
theorem execGenSalt_eq {s : State} (h : s.cost.toNat ≤ Config.costMax) :
    exec .genSalt s = .next (genSaltAnswered s.drawAnswer s) := by
  rw [exec_genSalt, execGenSalt, if_pos ((State.costOk_iff s).2 h)]

/-- The ways HASH can end in a next state. -/
inductive HashEnd {σ : Type} (C : Cipher σ) (returns : Bool) (s : State) : State → Prop where
  | failed (e : Err) (h : e = .format ∨ e = .illegal) : HashEnd C returns s (s.failWith .rout e)
  | wrote (x : Parsed) (h : parseRecord s.recordText Config.saltSyms = some x) (hc : returns = true) :
      HashEnd C returns s (writeRecord (hashRecord C s.password s.recordText x) s.callOver)
  | waits (h : returns = false) : HashEnd C returns s s

theorem hashWith_end {σ : Type} {C : Cipher σ} {returns : Bool} {s t : State}
    (h : hashWith C returns s = .next t) : HashEnd C returns s t := by
  unfold hashWith at h
  split at h
  · split at h <;> cases h
    · exact .failed _ (.inl rfl)
    · next x hp =>
      cases returns with
      | true => exact .wrote x hp rfl
      | false => exact .waits rfl
  · cases h; exact .failed _ (.inr rfl)

/-- HASH on a record that parses, its cipher calls returning. -/
theorem hashWith_eq {σ : Type} (C : Cipher σ) {s : State} {x : Parsed} (h1 : s.pwlen.toNat ≤ Config.pwMax)
    (h2 : s.rlen.toNat ≤ Config.recordMax) (hp : parseRecord s.recordText Config.saltSyms = some x) :
    hashWith C true s = .next (writeRecord (hashRecord C s.password s.recordText x) s.callOver) := by
  rw [hashWith, if_pos ((State.recordOperandsOk_iff s).2 ⟨h1, h2⟩), hp]; rfl

/-- The ways VERIFY can end in a next state. -/
inductive VerifyEnd (returns : Bool) (s : State) : State → Prop where
  | failed : VerifyEnd returns s (s.raiseError .illegal)
  | malformed : VerifyEnd returns s (s.completeVerify false)
  | compared (found : Bool) (h : returns = true) : VerifyEnd returns s (s.callOver.completeVerify found)
  | waits (h : returns = false) : VerifyEnd returns s s

theorem verifyWith_end {σ : Type} {C : Cipher σ} {returns : Bool} {s t : State}
    (h : verifyWith C returns s = .next t) : VerifyEnd returns s t := by
  unfold verifyWith at h
  split at h
  · split at h <;> cases h
    · exact .malformed
    · cases returns with
      | true => exact .compared _ rfl
      | false => exact .waits rfl
  · cases h; exact .failed

/-- VERIFY on a record that parses, its cipher calls returning. -/
theorem verifyWith_eq {σ : Type} (C : Cipher σ) {s : State} {x : Parsed} (h1 : s.pwlen.toNat ≤ Config.pwMax)
    (h2 : s.rlen.toNat ≤ Config.recordMax)
    (hp : parseRecord s.recordText (Config.saltSyms + Config.digestSyms) = some x) :
    verifyWith C true s = .next (s.callOver.completeVerify
      (digestsMatch (hashCore C s.password x.minor x.cost x.salt) (storedDigest s.recordText x))) := by
  rw [verifyWith, if_pos ((State.recordOperandsOk_iff s).2 ⟨h1, h2⟩), hp]; rfl

/-! ### Every answer of the capabilities stands at some number of calls -/

/-- The number whose base-256 digits are the bytes of a list, the first the lowest. -/
def natOfBytes : List Byte → Nat
  | [] => 0
  | b :: rest => b.toNat + 256 * natOfBytes rest

theorem natOfBytes_digit (l : List Byte) (i : Nat) :
    BitVec.ofNat 8 (natOfBytes l / 256 ^ i) = l.getD i 0 := by
  induction l generalizing i with
  | nil => simp [natOfBytes]
  | cons b rest ih =>
    cases i with
    | zero =>
      apply BitVec.eq_of_toNat_eq
      have := b.isLt
      simp only [natOfBytes, Nat.pow_zero, Nat.div_one, BitVec.toNat_ofNat, List.getD_cons_zero]; omega
    | succ i =>
      have := b.isLt
      rw [List.getD_cons_succ, ← ih i, natOfBytes, Nat.pow_succ', ← Nat.div_div_eq_div_mul]
      congr 2; omega

theorem saltOfNat_natOfBytes (x : Salt) : saltOfNat (natOfBytes x.toList) = x := by
  ext i hi
  simp [saltOfNat, natOfBytes_digit, List.getD]

/-- A code of an answer to a draw and of whether the cipher calls return. -/
def codeOf (answer : DrawAnswer) (returns : Bool) : Nat :=
  2 * (match answer with
    | .bytes salt => 3 * natOfBytes salt.toList
    | .unavailable => 1
    | .never => 2) + (if returns then 0 else 1)

theorem returnsOfCode_codeOf (answer : DrawAnswer) (returns : Bool) :
    returnsOfCode (codeOf answer returns) = returns := by
  cases returns <;> simp [returnsOfCode, codeOf]

theorem drawOfCode_codeOf (answer : DrawAnswer) (returns : Bool) :
    drawOfCode (codeOf answer returns) = answer := by
  cases answer with
  | bytes salt =>
    have h1 : codeOf (.bytes salt) returns / 2 % 3 = 0 := by
      simp only [codeOf]; split <;> omega
    have h2 : codeOf (.bytes salt) returns / 6 = natOfBytes salt.toList := by
      simp only [codeOf]; split <;> omega
    simp [drawOfCode, h1, h2, saltOfNat_natOfBytes]
  | unavailable => cases returns <;> rfl
  | never => cases returns <;> rfl

/-- The state whose next call has a given number: the one at which the capabilities answer as given. -/
def State.answering (answer : DrawAnswer) (returns : Bool) (s : State) : State :=
  { s with calls := Config.callNumbering.symm (codeOf answer returns) }

@[simp] theorem State.drawAnswer_answering (answer : DrawAnswer) (returns : Bool) (s : State) :
    (s.answering answer returns).drawAnswer = answer := by
  simp [State.drawAnswer, State.answering, drawOfCode_codeOf]

@[simp] theorem State.cipherReturns_answering (answer : DrawAnswer) (returns : Bool) (s : State) :
    (s.answering answer returns).cipherReturns = returns := by
  simp [State.cipherReturns, State.answering, returnsOfCode_codeOf]

/-! ### What a host action and a step can do -/

/-- A host access takes effect only where the map has a register or a byte. -/
theorem State.hostWrite_next {addr width : Nat} {v : Word} {s t : State}
    (h : s.hostWrite addr width v = .next t) :
    (∃ r, target addr width = .reg r ∧ t = s.writeReg r v) ∨
      ∃ off, target addr width = .byte off ∧ t = s.writeByte off (v.setWidth 8) := by
  unfold State.hostWrite at h
  split at h <;> cases h
  · exact .inl ⟨_, ‹_›, rfl⟩
  · exact .inr ⟨_, ‹_›, rfl⟩

theorem State.hostRead_next {addr width : Nat} {s t : State} (h : s.hostRead addr width = .next t) :
    (∃ r, target addr width = .reg r ∧ t = s.readReg r) ∨
      ∃ off, target addr width = .byte off ∧ t = s.readByte off := by
  unfold State.hostRead at h
  split at h <;> cases h
  · exact .inl ⟨_, ‹_›, rfl⟩
  · exact .inr ⟨_, ‹_›, rfl⟩

/-- A read changes at most the value returned and the count of draws. -/
theorem State.readReg_eq (r : Reg) (s : State) :
    ∃ v n, s.readReg r = { s with readData := v, draws := n } := by
  unfold State.readReg; split
  · exact ⟨_, s.draws, rfl⟩
  · exact ⟨_, _, rfl⟩

theorem State.readByte_eq (off : Nat) (s : State) :
    ∃ v n, s.readByte off = { s with readData := v, draws := n } := by
  unfold State.readByte; split
  · exact ⟨_, s.draws, rfl⟩
  · exact ⟨_, _, rfl⟩

/-- The offset of a byte the map has lies in a buffer. -/
theorem target_byte {addr width off : Nat} (h : target addr width = .byte off) :
    (bufAt off).isSome ∧ width = 1 ∧ addr = Config.base + off := by
  unfold target at h
  split at h
  · unfold targetAt at h
    split at h
    · split at h
      · split at h <;> cases h
      · cases h
    · split at h
      · split at h
        · cases h; exact ⟨‹_›, ‹_›, by omega⟩
        · cases h
      · cases h
  · cases h

/-- The three things a step can be. -/
theorem step_cases (s : State) :
    (s.pending = [] ∧ step s = s.blockAlone) ∨
      (∃ e rest, s.pending = e :: rest ∧ s.seq = .busy ∧ e.whileBusy = false ∧ step s = s.runCommand) ∨
      ∃ e rest, s.pending = e :: rest ∧ s.commandFirst e = false ∧
        step s = State.serve e.action { s with pending := rest } := by
  unfold step
  split
  · next h => exact .inl ⟨h, rfl⟩
  · next e rest h =>
    split
    · next hc =>
      simp only [State.commandFirst, Bool.and_eq_true, beq_iff_eq, Bool.not_eq_true'] at hc
      exact .inr (.inl ⟨e, rest, h, hc.1, hc.2, rfl⟩)
    · next hc => exact .inr (.inr ⟨e, rest, h, by simpa using hc, rfl⟩)

end Sys2Proof.Machine
end

