-- ==== Sys2Proof/Laws/PerInstr.lean ====
section
/-! SUPPORT. A statement about each command as syntax, one lemma a command: it is well-formed, its word is the
one of the opcode map (30_encoding.md R91), and that word decodes to it and to nothing else. -/

namespace Sys2Proof.Laws.Encodes

/-- OP and TSEL of a command, as the opcode map of R91 lists them. -/
def opcodeRow : Instr → Nat × Bool
  | .encodeD => (1, false)
  | .encodeA => (1, true)
  | .decodeD => (2, false)
  | .decodeA => (2, true)
  | .genSalt => (3, false)
  | .hash => (4, false)
  | .verify => (5, false)

/-- The command is well-formed, its word carries the OP and TSEL of its row with bits 31:4 zero, that word is
well-formed, and the decoder reads the command from it, as a word and as a table word. -/
def Statement (i : Instr) : Prop :=
  i.wf = true ∧ CommandWord.wf (encode i) = true ∧ zeroField (encode i) = 0 ∧
  ((opField (encode i)).toNat, tselField (encode i)) = opcodeRow i ∧
  decode (encode i) = .ok i ∧ decodeTableWord 32 (encode i).toNat = some i

theorem encodeD : Statement .encodeD := by unfold Statement; decide
theorem encodeA : Statement .encodeA := by unfold Statement; decide
theorem decodeD : Statement .decodeD := by unfold Statement; decide
theorem decodeA : Statement .decodeA := by unfold Statement; decide
theorem genSalt : Statement .genSalt := by unfold Statement; decide
theorem hash : Statement .hash := by unfold Statement; decide
theorem verify : Statement .verify := by unfold Statement; decide

end Sys2Proof.Laws.Encodes
end

