-- ==== Sys2Proof/Tests/Slice0.lean ====
section
/-! SUPPORT. The model's own tests: expected results are those of spec/95_test_vectors.md (the id of the vector
stands in each comment) or are written out by hand from the rule named. -/

namespace Sys2Proof.Tests

open Sys2Proof Sys2Proof.Machine

-- one theorem at a time: the many small evaluations below would otherwise start a thread each
set_option Elab.async false

/-! ### Well-formedness: a word each check refuses (R94, T62) -/

theorem test_wf_zero_field : CommandWord.zeroFieldClear 0x80000001 = false := by decide
theorem test_wf_op_reserved : CommandWord.opListed 0x00000006 = false := by decide
theorem test_wf_tsel : CommandWord.tselAllowed 0x0000000B = false := by decide
theorem test_wf_listed_word : CommandWord.wf 0x0000000A = true := by decide
theorem test_config_in_range : Config.wf = true := by decide

/-! ### Decoding words written out bit by bit from R90 and R91 -/

theorem test_decode_encode_d : decode 0b00000000000000000000000000000001#32 = .ok .encodeD := by decide
theorem test_decode_encode_a : decode 0b00000000000000000000000000001001#32 = .ok .encodeA := by decide
theorem test_decode_decode_d : decode 0b00000000000000000000000000000010#32 = .ok .decodeD := by decide
theorem test_decode_decode_a : decode 0b00000000000000000000000000001010#32 = .ok .decodeA := by decide
theorem test_decode_gensalt : decode 0b00000000000000000000000000000011#32 = .ok .genSalt := by decide
theorem test_decode_hash : decode 0b00000000000000000000000000000100#32 = .ok .hash := by decide
theorem test_decode_verify : decode 0b00000000000000000000000000000101#32 = .ok .verify := by decide
/-- T61, T62. -/
theorem test_decode_illegal :
    decode 0x00000000 = .error .reservedOp ∧ decode 0x00000007 = .error .reservedOp ∧
    decode 0x00000011 = .error .zeroFieldSet ∧ decode 0x0000000D = .error .tselNotAllowed := by decide
theorem test_table_word : decodeTableWord 32 9 = some .encodeA ∧ decodeTableWord 32 16 = none := by decide

/-! ### Text of a string, and a state with given operands -/

/-- The ASCII codes of a string (R7). -/
def ascii (s : String) : List Byte := s.toList.map fun c => BitVec.ofNat 8 c.toNat

/-- After reset, with one buffer's first bytes written. -/
def withBytes (b : Buf) (bytes : List Byte) (s : State) : State := s.storeBytes b.base bytes

/-- The codec operands loaded. -/
def codecState (ibuf : List Byte) (ilen ocap : Nat) : State :=
  { withBytes .ibuf ibuf State.reset with ilen := BitVec.ofNat 32 ilen, ocap := BitVec.ofNat 32 ocap }

/-- The HASH and VERIFY operands loaded. -/
def hashState (pw rin : List Byte) : State :=
  { withBytes .pwbuf pw (withBytes .rin rin State.reset) with
    pwlen := BitVec.ofNat 32 pw.length, rlen := BitVec.ofNat 32 rin.length }

/-- The command accepted, about to execute. -/
def ready (i : Instr) (s : State) : State := s.placeCommand (encode i)

/-- STATUS, OLEN and the first n bytes of an output buffer, when the command ends in a next state. -/
def results (b : OutBuf) (n : Nat) (o : Outcome) : Option (Nat × Nat × List Byte) :=
  match o with
  | .next t => some (t.statusWord.toNat, t.olen.toNat, t.readBytes b.buf.base n)
  | .fault _ => none
  | .refused _ => none

/-- STATUS and OLEN, when the command ends in a next state. -/
def ending (o : Outcome) : Option (Nat × Nat) :=
  match o with
  | .next t => some (t.statusWord.toNat, t.olen.toNat)
  | .fault _ => none
  | .refused _ => none

/-- Why the model refused, when it did. -/
def refusal (o : Outcome) : Option Refusal :=
  match o with
  | .next _ => none
  | .fault _ => none
  | .refused r => some r

/-- CTBL, the made-up padding table of the vectors. -/
def ctbl : Table := codeRange 0x30 10 ++ codeRange 0x41 26 ++ codeRange 0x61 26 ++ [0x2D, 0x5F, 0x2E]

/-! ### Tables: an ill-formed one each check refuses (R34) -/

theorem test_tables_wf : tableWF dtbl = true ∧ tableWF btbl = true ∧ tableWF ctbl = true := by decide
theorem test_table_zero_symbol : tableWF (0 :: btbl.drop 1) = false := by decide
theorem test_table_repeat : tableWF (dtbl.take 64 ++ [0x41]) = false := by decide
theorem test_table_short : tableWF (dtbl.take 64) = false := by decide
theorem test_table_text : dtbl = ascii "ABCDEFGHIJKLMNOPQRSTUVWXYZabcdefghijklmnopqrstuvwxyz0123456789+/=" := by decide
theorem test_salt_table_text :
    btbl = ascii "./ABCDEFGHIJKLMNOPQRSTUVWXYZabcdefghijklmnopqrstuvwxyz0123456789" ++ [0] := by decide
theorem test_magic_text : magic.toList = ascii "OrpheanBeholderScryDoubt" := by decide

/-! ### Enc and Dec -/

/-- T2, T3, T4. -/
theorem test_enc_padded :
    enc dtbl [0x4D] = ascii "TQ==" ∧ enc dtbl [0x4D, 0x61] = ascii "TWE=" ∧
    enc dtbl [0x4D, 0x61, 0x6E] = ascii "TWFu" := by decide +kernel
/-- T9, T10, T12. -/
theorem test_enc_unpadded :
    enc btbl [0x4D] = ascii "RO" ∧ enc btbl [0x4D, 0x61] = ascii "RUC" ∧
    enc btbl (codeRange 0 16) = ascii "..CA.uOD/eaGAOmJB.yMBu" := by decide +kernel
/-- T14c, T15. -/
theorem test_enc_high_indices :
    enc dtbl [0x14, 0xFB, 0x9C, 0x03, 0xD9, 0x7E] = ascii "FPucA9l+" ∧
    enc ctbl (ascii "fooba") = ascii "PczlOc4." := by decide +kernel
/-- T17, T18, T31, T34, T34a. -/
theorem test_dec_accepts :
    dec dtbl (ascii "TQ==") = some [0x4D] ∧ dec dtbl (ascii "TWE=") = some [0x4D, 0x61] ∧
    dec dtbl (ascii "TR==") = some [0x4D] ∧
    dec btbl (ascii "..CA.uOD/eaGAOmJB.yMBv") = some (codeRange 0 16) := by decide +kernel
/-- T20, T22, T24, T25, T26, T27, T28, T29, T30, T31a, T35, T37. -/
theorem test_dec_rejects :
    dec dtbl (ascii "TQ") = none ∧ dec dtbl (ascii "T") = none ∧ dec dtbl (ascii "TQ=") = none ∧
    dec dtbl (ascii "TQ===") = none ∧ dec dtbl (ascii "TQ=a") = none ∧ dec dtbl (ascii "TQ==a") = none ∧
    dec dtbl (ascii "TWFu=") = none ∧ dec dtbl (ascii "====") = none ∧ dec dtbl (ascii "TW!u") = none ∧
    dec dtbl (ascii "TWE=TWE=") = none ∧ dec btbl (ascii "R") = none ∧ dec btbl (ascii "RO==") = none := by
  decide +kernel

/-! ### ENCODE and DECODE, one step each -/

/-- EV1. -/
theorem test_encode_d :
    results .obuf 8 (exec .encodeD (ready .encodeD (codecState [0x4D, 0x61] 2 8)))
      = some (0x02, 4, [0x54, 0x57, 0x45, 0x3D, 0, 0, 0, 0]) := by decide +kernel
/-- EV3: the capacity is one short of the padded length. -/
theorem test_encode_d_capacity :
    ending (exec .encodeD (ready .encodeD (codecState [0x4D, 0x61] 2 3))) = some (0x06, 0) := by decide +kernel
/-- EV6: BTBL as the host table. -/
theorem test_encode_a :
    results .obuf 4 (exec .encodeA (ready .encodeA (withBytes .tbl btbl (codecState [0x4D] 1 4))))
      = some (0x02, 2, [0x52, 0x4F, 0, 0]) := by decide +kernel
/-- R284: TBL never written. -/
theorem test_encode_a_refused :
    refusal (exec .encodeA (ready .encodeA (codecState [0x4D] 1 4))) = some .illFormedTable := by decide +kernel
/-- DV6: bytes after the terminator are not examined. -/
theorem test_decode_d :
    results .obuf 3 (exec .decodeD (ready .decodeD (codecState [0x54, 0x57, 0x46, 0x75, 0, 0x21, 0x21] 7 3)))
      = some (0x02, 3, [0x4D, 0x61, 0x6E]) := by decide +kernel
/-- DV5: FormatError before CapacityError. -/
theorem test_decode_d_priority :
    ending (exec .decodeD (ready .decodeD (codecState (ascii "TWFuT") 5 0))) = some (0x0A, 0) := by decide +kernel
/-- DV9. -/
theorem test_decode_a :
    results .obuf 1 (exec .decodeA (ready .decodeA (withBytes .tbl btbl (codecState (ascii "RO") 2 1))))
      = some (0x02, 1, [0x4D]) := by decide +kernel
/-- DV10. -/
theorem test_decode_a_format :
    ending (exec .decodeA (ready .decodeA (withBytes .tbl btbl (codecState (ascii "RO==") 4 4))))
      = some (0x0A, 0) := by decide +kernel

/-! ### GENSALT -/

/-- 00 01 .. 0F, the salt S of the vectors. -/
def saltS : Salt := #v[0, 1, 2, 3, 4, 5, 6, 7, 8, 9, 10, 11, 12, 13, 14, 15]

/-- T42, given the source's answer. -/
theorem test_gensalt :
    results .rout 30 (.next (genSaltAnswered (.bytes saltS) (ready .genSalt { State.reset with cost := 5 })))
      = some (0x02, 28, ascii "$2$05$..CA.uOD/eaGAOmJB.yMBu" ++ [0, 0]) := by decide +kernel
/-- T43, at a state whose draw is answered with Unavailable. -/
theorem test_gensalt_unavailable :
    ending (exec .genSalt ((ready .genSalt State.reset).answering .unavailable true)) = some (0x0F, 0) := by
  rw [execGenSalt_eq (by decide), State.drawAnswer_answering]; rfl

/-! ### HASH and VERIFY on the stubs of section 2.3 of the vectors -/

/-- Stub I: the identity. -/
def stubI : Cipher Unit where
  s0 := ()
  initializeKeySchedule := fun s _ => s
  expensiveKeySchedule := fun s _ _ _ _ _ => s
  encryptBlockChain := fun _ buf _ => buf

/-- 24 bytes given by index. -/
def block (f : Nat → Byte) : Block24 :=
  #v[f 0, f 1, f 2, f 3, f 4, f 5, f 6, f 7, f 8, f 9, f 10, f 11, f 12, f 13, f 14, f 15,
     f 16, f 17, f 18, f 19, f 20, f 21, f 22, f 23]

/-- Stub K: the pad depends on every argument of the key schedule, and each encryption counts. -/
def stubK : Cipher Block24 where
  s0 := block fun _ => 0
  initializeKeySchedule := fun s _ => s
  expensiveKeySchedule := fun _ salt saltLen key keyLen rounds =>
    block fun i => (if keyLen = 0 then 0 else key.getD (i % keyLen) 0) + salt.getD (i % saltLen) 0
      + BitVec.ofNat 8 (rounds % 251) + BitVec.ofNat 8 keyLen
  encryptBlockChain := fun st buf _ =>
    if buf.toList = magic.toList then st else block fun i => buf.toList.getD i 0 + 1

/-- T47. -/
theorem test_hash_core_plain :
    hashCore stubK (ascii "pw") false 5 (codeRange 0 16) = ascii "yblR07Vbz79X2bth1cVd37FXy7tT1ba" := by decide +kernel
/-- T48, with the minor character. -/
theorem test_hash_core_minor :
    hashCore stubK (ascii "pw") true 5 (codeRange 0 16) = ascii "yrnizbzl0M/o08Lr1sXu2bjhzLvkz76" := by decide +kernel
/-- T49, cost 12. -/
theorem test_hash_core_cost :
    hashCore stubK (ascii "pw") false 12 (codeRange 0 16) = ascii ".OiBAuSL/u6HCOqRBPSNDuCH.uqDBOa" := by decide +kernel
/-- T47. -/
theorem test_hash :
    results .rout 64 (hashWith stubK true (ready .hash (hashState (ascii "pw") (ascii "$2$05$..CA.uOD/eaGAOmJB.yMBu"))))
      = some (0x02, 59, ascii "$2$05$..CA.uOD/eaGAOmJB.yMBuyblR07Vbz79X2bth1cVd37FXy7tT1ba" ++ [0, 0, 0, 0, 0]) := by
  decide +kernel
/-- T44. -/
theorem test_hash_identity :
    results .rout 60 (hashWith stubI true (ready .hash (hashState [] (ascii "$2a$04$..CA.uOD/eaGAOmJB.yMBu"))))
      = some (0x02, 60, ascii "$2a$04$..CA.uOD/eaGAOmJB.yMBuR1HuYETfZiHjYE7qXETwS0LwcSPtbUG") := by decide +kernel
/-- T45. -/
theorem test_verify :
    ending (verifyWith stubI true (ready .verify (hashState []
      (ascii "$2a$04$..CA.uOD/eaGAOmJB.yMBuR1HuYETfZiHjYE7qXETwS0LwcSPtbUG")))) = some (0x22, 0) := by decide +kernel
/-- T58b: the last symbol of the stored digest changed. -/
theorem test_verify_mismatch :
    ending (verifyWith stubI true (ready .verify (hashState []
      (ascii "$2a$04$..CA.uOD/eaGAOmJB.yMBuR1HuYETfZiHjYE7qXETwS0LwcSPtbU.")))) = some (0x02, 0) := by decide +kernel
/-- The text does not parse as a salt record. -/
def rejected (s : String) : Bool := (parseRecord (ascii s) 22).isNone

/-- T50, T50a, T51a, T52, T53: lead, version, minor and cost fields HASH rejects. -/
theorem test_parse_rejects_fields :
    (rejected "$2b$05$..CA.uOD/eaGAOmJB.yMBu" && rejected "$2a05$..CA.uOD/eaGAOmJB.yMBu" &&
     rejected "$3$05$..CA.uOD/eaGAOmJB.yMBu" && rejected "2$05$..CA.uOD/eaGAOmJB.yMBu" && rejected "" &&
     rejected "$2$03$..CA.uOD/eaGAOmJB.yMBu") = true := by decide +kernel
/-- T54a, T54b, T55, T56, T57: cost separators and salts HASH rejects. -/
theorem test_parse_rejects_tail :
    (rejected "$2$5$..CA.uOD/eaGAOmJB.yMBu" && rejected "$2$05..CA.uOD/eaGAOmJB.yMBu" &&
     rejected "$2$05$..CA.uOD/eaGAOmJB.yMB" && rejected "$2$05$..CA.uOD/eaGAOmJB.yMBu." &&
     rejected "$2$05$..CA.uOD/eaGAOmJB.yMB=") = true := by decide +kernel
/-- T51: a version below the block's own. -/
theorem test_parse_older_version :
    parseRecord (ascii "$1$05$..CA.uOD/eaGAOmJB.yMBu") 22 = some ⟨false, 5, codeRange 0 16, 6⟩ := by decide +kernel
/-- T54: the greatest cost, with the minor character. -/
theorem test_parse_greatest_cost :
    parseRecord (ascii "$2a$99$..CA.uOD/eaGAOmJB.yMBu") 22 = some ⟨true, 99, codeRange 0 16, 7⟩ := by decide +kernel

/-! ### Host accesses, one step each -/

/-- The state with one action pending. -/
def pend (a : Action) (s : State) : State := { s with pending := [⟨true, a⟩] }

/-- The value of a read, when the step ends in a next state. -/
def readBack (o : Outcome) : Option Nat :=
  match o with
  | .next t => some t.readData.toNat
  | .fault _ => none
  | .refused _ => none

/-- T61: an accepted word that names no command ends ILLEGAL. -/
theorem test_step_illegal_word : ending (step (State.reset.withFetchWord 32 0)) = some (0x12, 0) := by decide +kernel
/-- T42b. -/
theorem test_step_gensalt_cost :
    ending (step (State.withFetchWord { State.reset with cost := 100 } 32 3)) = some (0x12, 0) := by decide +kernel
/-- T60. -/
theorem test_step_verify_rlen :
    ending (step (State.withFetchWord { State.reset with rlen := 65 } 32 5)) = some (0x12, 0) := by decide +kernel
/-- T68. -/
theorem test_step_bad_access :
    refusal (step (pend (.read 0x0020 4) State.reset)) = some .unmappedAccess ∧
    refusal (step (pend (.read 0x0001 4) State.reset)) = some .badAccess ∧
    refusal (step (pend (.read 0x1000 4) State.reset)) = some .badAccess := by decide +kernel
/-- R61: the last byte of OBUF is mapped, the one after it is not. -/
theorem test_step_map_edge :
    target 0x2FFF 1 = .byte 0x2FFF ∧ target 0x3000 1 = .unmapped ∧ target 0x0081 1 = .unmapped ∧
    target 0x4000 4 = .unmapped := by decide +kernel
/-- T65: a write to OLEN is dropped; R21: one to ILEN is stored. -/
theorem test_step_write_olen :
    (match step (pend (.write 0x0010 4 7) State.reset) with | .next t => some (t.olen.toNat) | _ => none) = some 0 ∧
    (match step (pend (.write 0x0008 4 7) State.reset) with | .next t => some (t.ilen.toNat) | _ => none) = some 7 := by
  decide +kernel
/-- R22, R90: a CMD write is accepted: BUSY. -/
theorem test_step_accept : ending (step (pend (.write 0x0000 4 1) State.reset)) = some (0x01, 0) := by decide +kernel
/-- R73: STATUS reads BUSY while the command runs. -/
theorem test_step_read_busy :
    readBack (step (pend (.read 0x0004 4) (ready .hash State.reset))) = some 0x01 := by decide +kernel

/-- The block after T43. -/
def haltedState : State :=
  { ready .genSalt State.reset with seq := .halted, err := .environment }

/-- T66. -/
theorem test_step_halted :
    readBack (step (pend (.read 0x0004 4) haltedState)) = some 0x0F ∧
    (match step (pend (.write 0x0008 4 5) haltedState) with | .next t => some t.ilen.toNat | _ => none) = some 0 := by
  decide +kernel

/-! ### WITNESSES: for every statement with hypotheses, states and operands that meet them all together, one
for each clause, at the ends of each range -/

/-- The outcome is a next state. -/
def goesOn : Outcome → Bool
  | .next _ => true
  | .fault _ => false
  | .refused _ => false

/-- The next state of an outcome that has one. -/
def after : Outcome → State
  | .next t => t
  | .fault _ => State.reset
  | .refused _ => State.reset

theorem next_after {o : Outcome} (h : goesOn o = true) : o = .next (after o) := by
  cases o <;> first | rfl | cases h

/-- What an accepted command leaves meets `accepted`. -/
theorem ready_accepted (i : Instr) (s : State) : (ready i s).accepted := ⟨rfl, rfl, rfl, rfl⟩

/-- After a command that succeeded. -/
def doneState : State := { State.reset with seq := .done }

/-- Accepting a command leaves TBL alone. -/
theorem usable_ready (i : Instr) (s : State) : (ready i s).hostTableUsable = s.hostTableUsable := rfl

/-- BTBL as the host table. -/
def hosted (s : State) : State := withBytes .tbl btbl s

theorem hosted_usable : (hosted State.reset).hostTableUsable = true := by decide +kernel

/-- A salt record and a hash record. -/
def saltText : List Byte := ascii "$2$05$..CA.uOD/eaGAOmJB.yMBu"
def hashText : List Byte := ascii "$2a$04$..CA.uOD/eaGAOmJB.yMBuR1HuYETfZiHjYE7qXETwS0LwcSPtbUG"

theorem witness_CmdWriteIsAccepted :
    ((pend (.write 0 4 1) State.reset).seq = .idle ∧
      (pend (.write 0 4 1) State.reset).pending = [⟨true, .write Config.base 4 1⟩]) ∧
    ((pend (.write 0 4 0xFFFFFFFF) doneState).seq = .done ∧
      (pend (.write 0 4 0xFFFFFFFF) doneState).pending = [⟨true, .write Config.base 4 0xFFFFFFFF⟩]) := by decide +kernel

/-- With nothing pending, and with an action that waits. -/
theorem witness_StepRunsDecodedCommand :
    ((ready .hash State.reset).seq = .busy ∧ (ready .hash State.reset).commandNext ∧
      decode (ready .hash State.reset).cmd = .ok .hash) ∧
    (ready .verify (pend .reset State.reset)).seq = .busy ∧
      (ready .verify (pend .reset State.reset)).commandNext ∧
      decode (ready .verify (pend .reset State.reset)).cmd = .ok .verify :=
  ⟨⟨rfl, .inl rfl, by decide +kernel⟩, rfl, .inr ⟨_, _, rfl, rfl⟩, by decide +kernel⟩

/-- For each of the three ways a word names no command, from IDLE and from DONE. -/
theorem witness_IllegalWordEndsIllegal :
    ∀ w ∈ [(0 : Word), 6, 7, 0x11, 0x80000001, 0x0B, 0x0D], (∀ i, w ≠ encode i) ∧
      (pend (.write 0 4 w) State.reset).seq = .idle ∧ (pend (.write 0 4 w) doneState).seq = .done ∧
      (pend (.write 0 4 w) State.reset).pending = [⟨true, .write Config.base 4 w⟩] := by
  intro w hw
  refine ⟨fun i => ?_, rfl, rfl, rfl⟩
  simp only [List.mem_cons, List.not_mem_nil, or_false] at hw
  rcases hw with rfl | rfl | rfl | rfl | rfl | rfl | rfl <;> cases i <;> decide

/-- For each command, the source unavailable and the cipher calls returning. -/
theorem witness_AcceptedCommandEnds (i : Instr) :
    ∃ s : State, s.seq = .busy ∧ s.commandNext ∧ decode s.cmd = .ok i ∧ (i = .genSalt → s.drawAnswer ≠ .never) ∧
      ((i = .hash ∨ i = .verify) → s.cipherReturns = true) ∧
      ((i = .encodeA ∨ i = .decodeA) → s.hostTableUsable = true) :=
  ⟨(ready i (hosted State.reset)).answering .unavailable true, rfl, .inl rfl, by cases i <;> rfl,
    fun _ => by simp, fun _ => State.cipherReturns_answering _ _ _, fun _ => hosted_usable⟩

theorem witness_SilentCapabilityKeepsBusy :
    (∃ s : State, s.cost.toNat ≤ Config.costMax ∧ s.drawAnswer = .never) ∧
    (∃ (s : State) (x : Parsed), s.pwlen.toNat ≤ Config.pwMax ∧ s.rlen.toNat ≤ 64 ∧ s.cipherReturns = false ∧
      parseRecord s.recordText 22 = some x) ∧
    (∃ (s : State) (x : Parsed), s.pwlen.toNat ≤ Config.pwMax ∧ s.rlen.toNat ≤ 64 ∧ s.cipherReturns = false ∧
      parseRecord s.recordText 53 = some x) :=
  ⟨⟨State.reset.answering .never false, by decide +kernel, State.drawAnswer_answering _ _ _⟩,
   ⟨(hashState [] saltText).answering .never false, ⟨false, 5, codeRange 0 16, 6⟩,
     by decide +kernel, by decide +kernel, State.cipherReturns_answering _ _ _, by decide +kernel⟩,
   ⟨(hashState [] hashText).answering .never false, ⟨true, 4, codeRange 0 16, 7⟩,
     by decide +kernel, by decide +kernel, State.cipherReturns_answering _ _ _, by decide +kernel⟩⟩

/-- Every command from an accepted state with the operands of reset and a usable host table. -/
theorem witness_ErrorCodesOfCommands (i : Instr) :
    (ready i (hosted State.reset)).accepted ∧ ∃ t, exec i (ready i (hosted State.reset)) = .next t :=
  ⟨ready_accepted _ _, _, next_after (by cases i <;> decide +kernel)⟩

/-- A code in the table and one that is not. -/
theorem witness_InverseTableInverts :
    tableWF dtbl = true ∧ inv dtbl 0x3D = some 64 ∧ inv dtbl 0x41 = some 0 ∧ inv dtbl 0x2E = none := by decide +kernel

theorem witness_EncodePartialGroups : padOf dtbl ≠ 0 ∧ padOf btbl = 0 := by decide +kernel

/-- A scanned length of each remainder, one that ends at a pad and one that is the whole text. -/
theorem witness_DecodeFailsExactly :
    tableWF dtbl = true ∧
    ((0 : Byte) ∉ ascii "T" ∧ scannedLength dtbl (ascii "T") 1) ∧
    ((0 : Byte) ∉ ascii "TQ==" ∧ scannedLength dtbl (ascii "TQ==") 2) ∧
    ((0 : Byte) ∉ ascii "TWE=" ∧ scannedLength dtbl (ascii "TWE=") 3) ∧
    ((0 : Byte) ∉ ascii "TW!u" ∧ scannedLength dtbl (ascii "TW!u") 4) := by
  unfold scannedLength; decide +kernel

theorem witness_DecodedLength :
    (scannedLength dtbl [] 0 ∧ dec dtbl [] = some []) ∧
    (scannedLength dtbl (ascii "TQ==") 2 ∧ dec dtbl (ascii "TQ==") = some [0x4D]) ∧
    (scannedLength btbl (ascii "RUC") 3 ∧ dec btbl (ascii "RUC") = some [0x4D, 0x61]) := by
  unfold scannedLength; decide +kernel

theorem witness_DecodeOfEncode : tableWF dtbl = true ∧ tableWF btbl = true ∧ tableWF ctbl = true := by decide +kernel

/-- The default table with the greatest length that can fit, and a host table with nothing to encode. -/
theorem witness_EncodeCompletes :
    (∃ s : State, s.accepted ∧ encodesWith .encodeD s dtbl ∧ s.ilen.toNat ≤ Config.ibufSize ∧
      s.ocap.toNat ≤ Config.obufSize ∧ (s.ilen.toNat + 2) / 3 * 4 ≤ s.ocap.toNat ∧ s.ilen.toNat = 3072) ∧
    (∃ s : State, s.accepted ∧ encodesWith .encodeA s s.hostTable ∧ s.ilen.toNat ≤ Config.ibufSize ∧
      s.ocap.toNat ≤ Config.obufSize ∧ (s.ilen.toNat + 2) / 3 * 4 ≤ s.ocap.toNat) :=
  ⟨⟨ready .encodeD (codecState [] 3072 4096), ready_accepted _ _, .inl ⟨rfl, rfl⟩,
     by decide +kernel, by decide +kernel, by decide +kernel, by decide +kernel⟩,
   ⟨ready .encodeA (hosted State.reset), ready_accepted _ _, .inr ⟨rfl, hosted_usable, rfl⟩,
     by decide +kernel, by decide +kernel, by decide +kernel⟩⟩

/-- The capacity exactly the padded length, one byte less, and too little for the greatest length. -/
theorem witness_EncodeCapacityError :
    (∃ s : State, s.accepted ∧ encodesWith .encodeD s dtbl ∧ s.ilen.toNat ≤ Config.ibufSize ∧
      s.ocap.toNat ≤ Config.obufSize ∧ s.ocap.toNat = (s.ilen.toNat + 2) / 3 * 4) ∧
    (∃ s : State, s.accepted ∧ encodesWith .encodeD s dtbl ∧ s.ilen.toNat ≤ Config.ibufSize ∧
      s.ocap.toNat ≤ Config.obufSize ∧ s.ocap.toNat + 1 = (s.ilen.toNat + 2) / 3 * 4) ∧
    (∃ s : State, s.accepted ∧ encodesWith .encodeA s s.hostTable ∧ s.ilen.toNat ≤ Config.ibufSize ∧
      s.ocap.toNat ≤ Config.obufSize ∧ s.ocap.toNat < (s.ilen.toNat + 2) / 3 * 4) :=
  ⟨⟨ready .encodeD (codecState [0x4D] 1 4), ready_accepted _ _, .inl ⟨rfl, rfl⟩,
     by decide +kernel, by decide +kernel, by decide +kernel⟩,
   ⟨ready .encodeD (codecState [0x4D] 1 3), ready_accepted _ _, .inl ⟨rfl, rfl⟩,
     by decide +kernel, by decide +kernel, by decide +kernel⟩,
   ⟨ready .encodeA (hosted (codecState [] 4096 4096)), ready_accepted _ _, .inr ⟨rfl, by decide +kernel, rfl⟩,
     by decide +kernel, by decide +kernel, by decide +kernel⟩⟩

/-- One past either bound, for each command. -/
theorem witness_CodecOperandsOutOfRange (i : Instr) :
    ((ready i (codecState [] 4097 0)).accepted ∧
      Config.ibufSize < (ready i (codecState [] 4097 0)).ilen.toNat) ∧
    ((ready i (codecState [] 0 4097)).accepted ∧
      Config.obufSize < (ready i (codecState [] 0 4097)).ocap.toNat) :=
  ⟨⟨ready_accepted _ _, by cases i <;> decide +kernel⟩, ready_accepted _ _, by cases i <;> decide +kernel⟩

/-- A table never written, one whose last byte was not, and one that repeats a symbol. -/
theorem witness_UnusableTableIsRefused :
    (∃ s : State, s.ilen.toNat ≤ Config.ibufSize ∧ s.ocap.toNat ≤ Config.obufSize ∧
      ∃ j < 65, Memory.find s.mem (0x40 + j) = none) ∧
    (∃ s : State, s.ilen.toNat ≤ Config.ibufSize ∧ s.ocap.toNat ≤ Config.obufSize ∧
      Memory.find s.mem (0x40 + 63) ≠ none ∧ Memory.find s.mem (0x40 + 64) = none) ∧
    (∃ s : State, s.ilen.toNat ≤ Config.ibufSize ∧ s.ocap.toNat ≤ Config.obufSize ∧
      tableWF (s.readBytes 0x40 65) = false) :=
  ⟨⟨State.reset, by decide +kernel, by decide +kernel, 0, by decide +kernel, by decide +kernel⟩,
   ⟨withBytes .tbl (dtbl.take 64) State.reset, by decide +kernel, by decide +kernel, by decide +kernel, by decide +kernel⟩,
   ⟨withBytes .tbl (dtbl.take 64 ++ [0x41]) State.reset, by decide +kernel, by decide +kernel, by decide +kernel⟩⟩

/-- The capacity exactly the length decoded; a host table. -/
theorem witness_DecodeCompletes :
    (∃ (s : State) (d : List Byte), s.accepted ∧ decodesWith .decodeD s dtbl ∧
      s.ilen.toNat ≤ Config.ibufSize ∧ s.ocap.toNat ≤ Config.obufSize ∧
      dec dtbl (textOf (s.readBytes 0x1000 s.ilen.toNat)) = some d ∧ d.length ≤ s.ocap.toNat) ∧
    (∃ (s : State) (d : List Byte), s.accepted ∧ decodesWith .decodeA s s.hostTable ∧
      s.ilen.toNat ≤ Config.ibufSize ∧ s.ocap.toNat ≤ Config.obufSize ∧
      dec s.hostTable (textOf (s.readBytes 0x1000 s.ilen.toNat)) = some d ∧ d.length ≤ s.ocap.toNat) :=
  ⟨⟨ready .decodeD (codecState (ascii "TWE=") 4 2), [0x4D, 0x61], ready_accepted _ _, .inl ⟨rfl, rfl⟩,
     by decide +kernel, by decide +kernel, by decide +kernel, by decide +kernel⟩,
   ⟨ready .decodeA (hosted (codecState (ascii "RO") 2 4096)), [0x4D], ready_accepted _ _,
     .inr ⟨rfl, by decide +kernel, rfl⟩, by decide +kernel, by decide +kernel, by decide +kernel, by decide +kernel⟩⟩

theorem witness_DecodeFormatError :
    (∃ s : State, s.accepted ∧ decodesWith .decodeD s dtbl ∧ s.ilen.toNat ≤ Config.ibufSize ∧
      s.ocap.toNat ≤ Config.obufSize ∧ dec dtbl (textOf (s.readBytes 0x1000 s.ilen.toNat)) = none) ∧
    (∃ s : State, s.accepted ∧ decodesWith .decodeA s s.hostTable ∧ s.ilen.toNat ≤ Config.ibufSize ∧
      s.ocap.toNat ≤ Config.obufSize ∧ dec s.hostTable (textOf (s.readBytes 0x1000 s.ilen.toNat)) = none) :=
  ⟨⟨ready .decodeD (codecState (ascii "TQ") 2 0), ready_accepted _ _, .inl ⟨rfl, rfl⟩,
     by decide +kernel, by decide +kernel, by decide +kernel⟩,
   ⟨ready .decodeA (hosted (codecState (ascii "R") 1 4096)), ready_accepted _ _, .inr ⟨rfl, by decide +kernel, rfl⟩,
     by decide +kernel, by decide +kernel, by decide +kernel⟩⟩

/-- One byte too little. -/
theorem witness_DecodeCapacityError :
    (∃ (s : State) (d : List Byte), s.accepted ∧ decodesWith .decodeD s dtbl ∧
      s.ilen.toNat ≤ Config.ibufSize ∧ s.ocap.toNat ≤ Config.obufSize ∧
      dec dtbl (textOf (s.readBytes 0x1000 s.ilen.toNat)) = some d ∧ s.ocap.toNat < d.length) ∧
    (∃ (s : State) (d : List Byte), s.accepted ∧ decodesWith .decodeA s s.hostTable ∧
      s.ilen.toNat ≤ Config.ibufSize ∧ s.ocap.toNat ≤ Config.obufSize ∧
      dec s.hostTable (textOf (s.readBytes 0x1000 s.ilen.toNat)) = some d ∧ s.ocap.toNat < d.length) :=
  ⟨⟨ready .decodeD (codecState (ascii "TWE=") 4 1), [0x4D, 0x61], ready_accepted _ _, .inl ⟨rfl, rfl⟩,
     by decide +kernel, by decide +kernel, by decide +kernel, by decide +kernel⟩,
   ⟨ready .decodeA (hosted (codecState (ascii "RO") 2 0)), [0x4D], ready_accepted _ _,
     .inr ⟨rfl, by decide +kernel, rfl⟩, by decide +kernel, by decide +kernel, by decide +kernel, by decide +kernel⟩⟩

/-- Each command, ending with ERR = 0 and ending with another code. -/
theorem witness_CodecFrame (i : Instr) (hi : i ∈ [Instr.encodeD, .encodeA, .decodeD, .decodeA]) :
    (∃ t, exec i (ready i (hosted (codecState [] 0 0))) = .next t ∧ t.err = .ok) ∧
    (∃ t, exec i (ready i (hosted (codecState [] 4097 0))) = .next t ∧ t.err ≠ .ok) :=
  ⟨⟨_, next_after (by revert i; decide +kernel), by revert i; decide +kernel⟩,
   ⟨_, next_after (by revert i; decide +kernel), by revert i; decide +kernel⟩⟩

/-- The byte 0x4D encoded, and its text decoded, with the default table. -/
theorem witness_EncodeThenDecode :
    ∃ s t u : State, s.accepted ∧ encodesWith .encodeD s dtbl ∧ exec .encodeD s = .next t ∧ t.err = .ok ∧
      u.accepted ∧ decodesWith .decodeD u dtbl ∧ u.ilen.toNat ≤ Config.ibufSize ∧
      u.ocap.toNat ≤ Config.obufSize ∧ s.ilen.toNat ≤ u.ocap.toNat ∧
      textOf (u.readBytes 0x1000 u.ilen.toNat) = t.readBytes 0x2000 t.olen.toNat :=
  ⟨ready .encodeD (codecState [0x4D] 1 4), after (exec .encodeD (ready .encodeD (codecState [0x4D] 1 4))),
   ready .decodeD (codecState (ascii "TQ==") 4 1), ready_accepted _ _, .inl ⟨rfl, rfl⟩,
   next_after (by decide +kernel), by decide +kernel, ready_accepted _ _, .inl ⟨rfl, rfl⟩, by decide +kernel, by decide +kernel, by decide +kernel,
   by decide +kernel⟩

/-- A cost below the minimum, and the greatest. -/
theorem witness_GenSaltCompletes :
    (∃ s : State, s.accepted ∧ s.cost.toNat ≤ Config.costMax ∧ s.drawAnswer = .bytes saltS ∧
      4 = max s.cost.toNat 4 ∧ s.cost.toNat = 0) ∧
    (∃ (s : State) (x : Salt), s.accepted ∧ s.cost.toNat ≤ Config.costMax ∧ s.drawAnswer = .bytes x ∧
      99 = max s.cost.toNat 4) :=
  ⟨⟨(ready .genSalt State.reset).answering (.bytes saltS) true, ⟨rfl, rfl, rfl, rfl⟩, by decide +kernel,
     State.drawAnswer_answering _ _ _, by decide +kernel, by decide +kernel⟩,
   ⟨(ready .genSalt { State.reset with cost := 99 }).answering (.bytes saltS) true, saltS, ⟨rfl, rfl, rfl, rfl⟩,
     by decide +kernel, State.drawAnswer_answering _ _ _, by decide +kernel⟩⟩

theorem witness_GenSaltCostOutOfRange :
    ∃ s : State, s.accepted ∧ Config.costMax < s.cost.toNat ∧ s.cost.toNat = 100 :=
  ⟨ready .genSalt { State.reset with cost := 100 }, ready_accepted _ _, by decide +kernel, by decide +kernel⟩

theorem witness_GenSaltHaltsWithoutSource :
    ∃ s : State, s.accepted ∧ s.cost.toNat ≤ Config.costMax ∧ s.drawAnswer = .unavailable :=
  ⟨(ready .genSalt { State.reset with cost := 99 }).answering .unavailable true, ⟨rfl, rfl, rfl, rfl⟩,
    by decide +kernel, State.drawAnswer_answering _ _ _⟩

theorem witness_ParsedSaltHasSixteenBytes :
    22 ≤ 53 ∧ (0 : Byte) ∉ hashText ∧ parseRecord hashText 53 = some ⟨true, 4, codeRange 0 16, 7⟩ := by
  decide +kernel

theorem witness_SaltRecordParses : 4 ≤ 4 ∧ 4 ≤ 99 ∧ 99 ≤ 99 := by decide +kernel

theorem witness_MalformedRecordCallsNoCipher :
    parseRecord State.reset.recordText 22 = none ∧ parseRecord State.reset.recordText 53 = none ∧
    parseRecord (hashState [] saltText).recordText 53 = none := by decide +kernel

/-- With and without the minor character. -/
theorem witness_HashCompletes :
    (∃ s : State, s.accepted ∧ s.pwlen.toNat ≤ Config.pwMax ∧ s.rlen.toNat ≤ 64 ∧
      parseRecord (textOf (s.readBytes 0xC0 s.rlen.toNat)) 22 = some ⟨false, 5, codeRange 0 16, 6⟩ ∧
      s.cipherReturns = true) ∧
    (∃ s : State, s.accepted ∧ s.pwlen.toNat = Config.pwMax ∧ s.rlen.toNat = 64 ∧
      parseRecord (textOf (s.readBytes 0xC0 s.rlen.toNat)) 22 = some ⟨true, 99, codeRange 0 16, 7⟩ ∧
      s.cipherReturns = true) :=
  ⟨⟨(ready .hash (hashState [] saltText)).answering .never true, ⟨rfl, rfl, rfl, rfl⟩, by decide +kernel,
     by decide +kernel, by decide +kernel, State.cipherReturns_answering _ _ _⟩,
   ⟨({ ready .hash (hashState [] (ascii "$2a$99$..CA.uOD/eaGAOmJB.yMBu" ++ [0])) with
        pwlen := 256, rlen := 64 }).answering .never true,
     ⟨rfl, rfl, rfl, rfl⟩, by decide +kernel, by decide +kernel, by decide +kernel,
     State.cipherReturns_answering _ _ _⟩⟩

/-- An empty record, and a record for VERIFY. -/
theorem witness_HashFormatError :
    (∃ s : State, s.accepted ∧ s.pwlen.toNat ≤ Config.pwMax ∧ s.rlen.toNat ≤ 64 ∧
      parseRecord (textOf (s.readBytes 0xC0 s.rlen.toNat)) 22 = none ∧ s.rlen = 0) ∧
    (∃ s : State, s.accepted ∧ s.pwlen.toNat ≤ Config.pwMax ∧ s.rlen.toNat ≤ 64 ∧
      parseRecord (textOf (s.readBytes 0xC0 s.rlen.toNat)) 22 = none ∧ s.rlen = 60) :=
  ⟨⟨ready .hash State.reset, ready_accepted _ _, by decide +kernel, by decide +kernel, by decide +kernel, rfl⟩,
   ⟨ready .hash (hashState [] hashText), ready_accepted _ _, by decide +kernel, by decide +kernel, by decide +kernel,
     by decide +kernel⟩⟩

theorem witness_VerifyCompletes :
    ∃ (s : State) (x : Parsed) (r : List Byte), s.accepted ∧ s.pwlen.toNat ≤ Config.pwMax ∧
      s.rlen.toNat ≤ 64 ∧ r = textOf (s.readBytes 0xC0 s.rlen.toNat) ∧ parseRecord r 53 = some x ∧
      s.cipherReturns = true :=
  ⟨(ready .verify (hashState [] hashText)).answering .never true, ⟨true, 4, codeRange 0 16, 7⟩, _,
   ⟨rfl, rfl, rfl, rfl⟩, by decide +kernel, by decide +kernel, rfl, by decide +kernel,
   State.cipherReturns_answering _ _ _⟩

/-- An empty record, and a record for HASH. -/
theorem witness_VerifyMasksFormatError :
    (∃ s : State, s.accepted ∧ s.pwlen.toNat ≤ Config.pwMax ∧ s.rlen.toNat ≤ 64 ∧
      parseRecord (textOf (s.readBytes 0xC0 s.rlen.toNat)) 53 = none ∧ s.rlen = 0) ∧
    (∃ s : State, s.accepted ∧ s.pwlen.toNat ≤ Config.pwMax ∧ s.rlen.toNat ≤ 64 ∧
      parseRecord (textOf (s.readBytes 0xC0 s.rlen.toNat)) 53 = none ∧ s.rlen = 28) :=
  ⟨⟨ready .verify State.reset, ready_accepted _ _, by decide +kernel, by decide +kernel, by decide +kernel, rfl⟩,
   ⟨ready .verify (hashState [] saltText), ready_accepted _ _, by decide +kernel, by decide +kernel, by decide +kernel,
     by decide +kernel⟩⟩

/-- One past either bound, for each command. -/
theorem witness_RecordOperandsOutOfRange (i : Instr) :
    ((ready i { State.reset with pwlen := 257 }).accepted ∧
      Config.pwMax < (ready i { State.reset with pwlen := 257 }).pwlen.toNat) ∧
    ((ready i { State.reset with rlen := 65 }).accepted ∧
      64 < (ready i { State.reset with rlen := 65 }).rlen.toNat) :=
  ⟨⟨ready_accepted _ _, by cases i <;> decide +kernel⟩, ready_accepted _ _, by cases i <;> decide +kernel⟩

/-- The record HASH writes for the password of no byte under the salt record of T42. -/
def hashedText : List Byte := hashRecord Config.cipher [] saltText ⟨false, 5, codeRange 0 16, 6⟩

theorem hashedText_length : hashedText.length = 59 := by
  have h : ∀ b : List Byte, b.length = 23 → (enc btbl b).length = 31 := fun b h => by
    rw [enc_length_unpadded (by simp), h]; decide +kernel
  have : saltText.length = 28 := by decide +kernel
  simp [hashedText, hashRecord, this, hashCore, h]

theorem saltText_ne_zero : ∀ c ∈ saltText.take 28, c ≠ 0 := by decide +kernel

theorem hashedText_ne_zero : ∀ c ∈ hashedText, c ≠ 0 := by
  intro c hc
  rcases List.mem_append.1 hc with h | h
  · exact saltText_ne_zero c h
  · exact enc_btbl_ne_zero h

theorem textOf_hashedText : textOf hashedText = hashedText :=
  List.takeWhile_eq_self_iff.2 fun c hc => by simpa using hashedText_ne_zero c hc

/-- VERIFY accepted with a 59-byte record and no password. -/
def verifyOf (r : List Byte) : State :=
  ({ ready .verify (withBytes .rin r State.reset) with rlen := 59 }).answering .never true

theorem verifyOf_reads {r : List Byte} (h : r.length = 59) : (verifyOf r).readBytes 0xC0 59 = r := by
  have h1 : ∀ i < 59, (verifyOf r).byteAt (0xC0 + i) = (State.storeBytes 0xC0 r State.reset).byteAt (0xC0 + i) :=
    fun i _ => State.byteAt_congr rfl rfl rfl rfl _
  have h2 := State.readBytes_storeBytes 0xC0 r State.reset
  rw [h] at h2
  rw [State.readBytes_congr h1, h2]

/-- ROUT after a result of 59 bytes. -/
theorem result_reads {r : List Byte} (h : r.length = 59) (n : Nat) (s : State) :
    (State.complete n (State.storeResult .rout 64 r s)).readBytes 0x100 59 = r := by
  rw [State.readBytes_complete]
  apply List.ext_getElem
  · simp [h]
  · intro j a b
    have hj : j < 59 := by rwa [h] at b
    rw [← List.getD_eq_getElem _ 0 a, ← List.getD_eq_getElem _ 0 b, State.readBytes_getD _ _ _ _ hj,
      State.byteAt_storeResult _ _ (by omega), if_pos (by simp; omega)]
    simp

/-- HASH of the password of no byte, accepted, the cipher calls returning. -/
def hashReady : State := (ready .hash (hashState [] saltText)).answering .never true

theorem hashReady_runs : exec .hash hashReady = .next (writeRecord hashedText hashReady.callOver) := by
  have hp : parseRecord hashReady.recordText Config.saltSyms = some ⟨false, 5, codeRange 0 16, 6⟩ := by
    decide +kernel
  have ht : hashReady.recordText = saltText := by decide +kernel
  have hw : hashReady.password = [] := by decide +kernel
  have hc : hashReady.cipherReturns = true := State.cipherReturns_answering _ _ _
  rw [exec_hash, execHash, hc, hashWith_eq _ (by decide +kernel) (by decide +kernel) hp, ht, hw, hashedText]

/-- GENSALT at the least cost, the source answering with the salt of the vectors. -/
theorem genSalt_runs :
    exec .genSalt ((ready .genSalt State.reset).answering (.bytes saltS) true)
      = .next (genSaltAnswered (.bytes saltS) ((ready .genSalt State.reset).answering (.bytes saltS) true)) := by
  rw [execGenSalt_eq (by decide +kernel), State.drawAnswer_answering]

/-- Each command, ending with ERR = 0. -/
theorem witness_HashFrame :
    (∃ s t, exec .genSalt s = .next t ∧ t.err = .ok) ∧ (∃ s t, exec .hash s = .next t ∧ t.err = .ok) ∧
    (∃ s t, exec .verify s = .next t ∧ t.err = .ok) :=
  ⟨⟨_, _, genSalt_runs, rfl⟩, ⟨_, _, hashReady_runs, rfl⟩,
   ready .verify State.reset, _, next_after (by decide +kernel), by decide +kernel⟩

theorem witness_HashThenVerifyMatches :
    ∃ s t u : State, s.accepted ∧ exec .hash s = .next t ∧ t.seq = .done ∧ t.err = .ok ∧ u.accepted ∧
      u.cipherReturns = true ∧ u.pwlen.toNat ≤ Config.pwMax ∧ u.rlen.toNat ≤ 64 ∧
      u.readBytes 0x200 u.pwlen.toNat = s.readBytes 0x200 s.pwlen.toNat ∧
      textOf (u.readBytes 0xC0 u.rlen.toNat) = t.readBytes 0x100 t.olen.toNat := by
  refine ⟨hashReady, _, verifyOf hashedText, ⟨rfl, rfl, rfl, rfl⟩, hashReady_runs, rfl, rfl,
    ⟨rfl, rfl, rfl, rfl⟩, State.cipherReturns_answering _ _ _, by decide +kernel, by decide +kernel, rfl, ?_⟩
  have h1 : (verifyOf hashedText).rlen.toNat = 59 := by decide +kernel
  rw [h1, verifyOf_reads hashedText_length, textOf_hashedText]
  simp only [writeRecord, State.complete_olen, hashedText_length]
  exact (result_reads hashedText_length _ _).symm

/-- For each command. -/
theorem witness_CommandsWriteNoInput (i : Instr) :
    (∃ t, exec i (ready i (hosted State.reset)) = .next t) ∧ Buf.ibuf ≠ .obuf ∧ Buf.ibuf ≠ .rout ∧
      Buf.ibuf.has 0x1FFF = true ∧ Buf.tbl.has 0x40 = true ∧ Buf.tbl.has 0x41 = true ∧
      Buf.pwbuf.has 0x2FF = true ∧ Buf.rin.has 0xFF = true :=
  ⟨⟨_, next_after (by cases i <;> decide +kernel)⟩, by decide +kernel⟩

/-- Each other command, with 65 bytes of TBL replaced. -/
theorem witness_OnlyHostTableCommandsReadTbl (i : Instr) :
    i ≠ .encodeA → i ≠ .decodeA → btbl.length ≤ 65 ∧ ∃ t, exec i (ready i State.reset) = .next t :=
  fun h1 h2 => ⟨by decide +kernel, _, next_after (by cases i <;> first | decide +kernel | contradiction)⟩

/-- Reads and writes: a gap, past the end of a buffer, past the window, a bad width, a bad alignment. -/
theorem witness_OtherAccessesAreRefused :
    ∀ p ∈ [(0x0020, 4), (0x0081, 1), (0x00C0, 4), (0x0001, 4), (0x0000, 1), (0x2FFF, 4), (0x3000, 1), (0x4000, 4)],
      (∀ r, target p.1 p.2 ≠ .reg r) ∧ (∀ o, target p.1 p.2 ≠ .byte o) ∧
      (pend (.read p.1 p.2) State.reset).pending = [⟨true, .read p.1 p.2⟩] ∧
      (pend (.write p.1 p.2 0) (ready .hash State.reset)).pending = [⟨true, .write p.1 p.2 0⟩] := by
  intro p hp
  have h : target p.1 p.2 = .unmapped ∨ target p.1 p.2 = .badAccess := by revert p; decide +kernel
  exact ⟨fun r e => by rw [e] at h; simp at h, fun o e => by rw [e] at h; simp at h, rfl, rfl⟩

/-- For each register but CMD. -/
theorem witness_RegisterWrites (r : Reg) :
    r ≠ .cmd → (pend (.write r.offset 4 0xFFFFFFFF) doneState).seq = .done ∧
      (pend (.write r.offset 4 0xFFFFFFFF) doneState).pending
        = [⟨true, .write (Config.base + r.offset) 4 0xFFFFFFFF⟩] := by
  cases r <;> decide +kernel

/-- The first and the last byte of each buffer. -/
theorem witness_BufferWrites (b : Buf) :
    ∀ j ∈ [0, b.size - 1], j < b.size ∧ (pend (.write (b.base + j) 1 0x1FF) State.reset).seq = .idle ∧
      (pend (.write (b.base + j) 1 0x1FF) State.reset).pending
        = [⟨true, .write (Config.base + (b.base + j)) 1 0x1FF⟩] := by
  cases b <;> decide +kernel

/-- Each register, and the first and the last byte of each buffer. -/
theorem witness_ReadsHaveNoSideEffect :
    (∀ r : Reg, (pend (.read r.offset 4) State.reset).seq = .idle ∧
      (pend (.read r.offset 4) State.reset).pending = [⟨true, .read (Config.base + r.offset) 4⟩]) ∧
    ∀ b : Buf, ∀ j ∈ [0, b.size - 1], j < b.size ∧ (pend (.read (b.base + j) 1) doneState).seq = .done ∧
      (pend (.read (b.base + j) 1) doneState).pending = [⟨true, .read (Config.base + (b.base + j)) 1⟩] := by
  refine ⟨fun r => by cases r <;> decide +kernel, fun b => by cases b <;> decide +kernel⟩

/-- A write, a read of STATUS, and reads of another register and of a byte. -/
theorem witness_AccessesWhileBusy :
    (pend (.write 0x0000 4 1) (ready .hash State.reset)).accepted ∧ target 0x0000 4 = .reg .cmd ∧
    (pend (.read 0x0004 4) (ready .hash State.reset)).accepted ∧ target 0x0004 4 = .reg .status ∧
    (pend (.read 0x0010 4) (ready .hash State.reset)).accepted ∧ target 0x0010 4 = .reg .olen ∧
    (pend (.read 0x2000 1) (ready .hash State.reset)).accepted ∧ target 0x2000 1 = .byte 0x2000 :=
  ⟨⟨rfl, rfl, rfl, rfl⟩, by decide +kernel, ⟨rfl, rfl, rfl, rfl⟩, by decide +kernel, ⟨rfl, rfl, rfl, rfl⟩, by decide +kernel,
   ⟨rfl, rfl, rfl, rfl⟩, by decide +kernel⟩

/-- The halted block meets the invariant, whatever is pending. -/
theorem haltedState_inv (a : Action) : (pend a haltedState).Inv :=
  have h : haltedState.Inv :=
    ⟨by decide +kernel, by decide +kernel, by decide +kernel, by decide +kernel, by decide +kernel, by decide +kernel, by decide +kernel, by decide +kernel⟩
  ⟨h.memory, h.idle, h.busy, h.halted, h.matched, h.failed, h.count, h.haltedBy⟩

theorem witness_AccessesWhileHalted :
    (∀ a, (pend a haltedState).Inv ∧ (pend a haltedState).seq = .halted ∧
      (pend a haltedState).pending = [⟨true, a⟩]) ∧
    target 0x0000 4 = .reg .cmd ∧ target 0x0004 4 = .reg .status ∧ target 0x0010 4 = .reg .olen ∧
    target 0x0008 4 = .reg .ilen ∧ target 0x013F 1 = .byte 0x013F :=
  ⟨fun a => ⟨haltedState_inv a, rfl, rfl⟩, by decide +kernel⟩

/-- By reset, and by a write that is dropped. -/
theorem witness_OnlyResetLeavesHalted :
    (pend .reset haltedState).seq = .halted ∧ (∃ t, step (pend .reset haltedState) = .next t) ∧
    (pend (.write 0x0000 4 1) haltedState).seq = .halted ∧
    ∃ t, step (pend (.write 0x0000 4 1) haltedState) = .next t :=
  ⟨rfl, ⟨_, next_after (by decide +kernel)⟩, rfl, _, next_after (by decide +kernel)⟩

theorem witness_HaltedRunEndsInFault : haltedState.seq = .halted ∧ haltedState.pending = [] := by decide +kernel

/-- In the middle of a command, and in the halt. -/
theorem witness_ResetFromAnyState :
    (pend .reset (ready .hash State.reset)).pending = [⟨true, .reset⟩] ∧
    (pend .reset haltedState).seq = .halted ∧ (pend .reset haltedState).pending = [⟨true, .reset⟩] := by decide +kernel

/-- From reset, and a command that ends, its result stored. -/
theorem witness_StepKeepsInvariant :
    State.reset.Inv ∧ (∃ t, step State.reset = .next t) ∧ (ready .genSalt State.reset).Inv ∧
    ∃ t, step (ready .genSalt State.reset) = .next t :=
  ⟨⟨by decide +kernel, by decide +kernel, by decide +kernel, by decide +kernel, by decide +kernel, by decide +kernel, by decide +kernel, by decide +kernel⟩,
   ⟨_, next_after (by decide +kernel)⟩,
   ⟨by decide +kernel, by decide +kernel, by decide +kernel, by decide +kernel, by decide +kernel, by decide +kernel, by decide +kernel, by decide +kernel⟩,
   _, next_after (by decide +kernel)⟩

end Sys2Proof.Tests
end

/-! PROOFS. The invariant of the block: what running a command, a host access and a reset leave has it. -/

namespace Sys2Proof.Machine

/-! ### How any command ends -/

/-- A command that answers a next state ends in one of the ways its family has. -/
theorem exec_end {i : Instr} {s t : State} (h : exec i s = .next t) :
    CodecEnd s t ∨ (i = .genSalt ∧ GenSaltEnd s t) ∨ (i = .hash ∧ HashEnd Config.cipher s.cipherReturns s t) ∨
      (i = .verify ∧ VerifyEnd s.cipherReturns s t) := by
  cases i with
  | encodeD => exact .inl (execCodec_end (by decide) h)
  | encodeA => exact .inl (execCodec_end (by decide) h)
  | decodeD => exact .inl (execCodec_end (by decide) h)
  | decodeA => exact .inl (execCodec_end (by decide) h)
  | genSalt => exact .inr (.inl ⟨rfl, execGenSalt_end h⟩)
  | hash => exact .inr (.inr (.inl ⟨rfl, hashWith_end h⟩))
  | verify => exact .inr (.inr (.inr ⟨rfl, verifyWith_end h⟩))

/-! ### The invariant in the states a step can leave -/

/-- What only the outside world changes (operands, pending actions, bytes) does not bear on the invariant, as
long as memory stays canonical. -/
theorem State.Inv.of_sameResults {s t : State} (hs : s.Inv) (hm : Memory.wf t.mem) (hc : t.cmd = s.cmd)
    (hr : s.sameResults t) : t.Inv := by
  obtain ⟨hseq, herr, holen, hmatch⟩ := hr
  obtain ⟨-, hidle, hbusy, hhalted, hmatched, hfailed, hcount, hby⟩ := hs
  rw [← hseq, ← herr, ← holen, ← hmatch, ← hc] at *
  exact ⟨hm, hidle, hbusy, hhalted, hmatched, hfailed, hcount, hby⟩

/-- A command that has ended, other than by the halt, leaves the invariant. -/
theorem State.ended.inv {t : State} {e : Err} {n : Nat} {found : Bool} (h : t.ended e n found)
    (hm : Memory.wf t.mem) (he : e ≠ .environment) (hn : n ≤ Config.obufSize)
    (hfound : found = true → e = .ok ∧ n = 0 ∧ decode t.cmd = .ok .verify)
    (hfailed : e ≠ .ok → found = false ∧ n = 0) : t.Inv := by
  obtain ⟨hseq, rfl, rfl, rfl⟩ := h
  have holen : t.olen.toNat = 0 → t.olen = 0 := fun h => BitVec.eq_of_toNat_eq h
  exact
    { memory := hm
      idle := by simp [hseq]
      busy := by simp [hseq]
      halted := by simp [hseq, he]
      matched := fun h => ⟨hseq, (hfound h).1, holen (hfound h).2.1, (hfound h).2.2⟩
      failed := fun h => ⟨(hfailed h).1, holen (hfailed h).2⟩
      count := hn
      haltedBy := by simp [hseq] }

/-- After an error other than EnvironmentError. -/
theorem State.ended.inv_of_error {t : State} {e : Err} (h : t.ended e 0 false) (hm : Memory.wf t.mem)
    (he : e ≠ .environment) : t.Inv :=
  h.inv hm he (Nat.zero_le _) nofun fun _ => ⟨rfl, rfl⟩

/-- After a success that sets no MATCH. -/
theorem State.ended.inv_of_count {t : State} {n : Nat} (h : t.ended .ok n false) (hm : Memory.wf t.mem)
    (hn : n ≤ Config.obufSize) : t.Inv :=
  h.inv hm nofun hn nofun fun he => absurd rfl he

/-- After a VERIFY. -/
theorem State.ended.inv_of_verify {t : State} {found : Bool} (h : t.ended .ok 0 found) (hm : Memory.wf t.mem)
    (hc : decode t.cmd = .ok .verify) : t.Inv :=
  h.inv hm nofun (Nat.zero_le _) (fun _ => ⟨rfl, rfl, hc⟩) fun he => absurd rfl he

/-- A BUSY block with the invariant is what R90 leaves. -/
theorem State.Inv.accepted {s : State} (hs : s.Inv) (hb : s.seq = .busy) : s.accepted :=
  ⟨hb, hs.busy hb⟩

/-! ### How the shared operations end a command that was accepted -/

theorem State.accepted.noMatch {s : State} (h : s.accepted) : s.matchFlag = false := h.2.2.1
theorem State.accepted.noCount {s : State} (h : s.accepted) : s.olen = 0 := h.2.2.2

theorem State.accepted.raiseError_ended {s : State} (h : s.accepted) (e : Err) :
    (s.raiseError e).ended e 0 false :=
  ⟨rfl, rfl, by simp [h.noCount], h.noMatch⟩

theorem State.accepted.failWith_ended {s : State} (h : s.accepted) (b : OutBuf) (e : Err) :
    (s.failWith b e).ended e 0 false :=
  ⟨by simp, by simp, by simp [h.noCount], by simp [h.noMatch]⟩

theorem State.completeVerify_ended (found : Bool) (s : State) : (s.completeVerify found).ended .ok 0 found :=
  ⟨rfl, rfl, rfl, rfl⟩

/-- A count up to OBUF_SIZE stands in OLEN as it is. -/
theorem State.complete_ended {s : State} {n : Nat} (hmatch : s.matchFlag = false) (hn : n ≤ Config.obufSize) :
    (s.complete n).ended .ok n false := by
  rw [Config.obufSize_val] at hn
  exact ⟨rfl, rfl, by simp; omega, hmatch⟩

/-! ### Running a command keeps the invariant -/

theorem CodecEnd.inv {s t : State} (hs : s.Inv) (ha : s.accepted) (h : CodecEnd s t) : t.Inv := by
  cases h with
  | failed e he =>
    refine (ha.failWith_ended .obuf e).inv_of_error (by simpa using Memory.wf_forget _ hs.memory) ?_
    rcases he with rfl | rfl | rfl <;> decide
  | succeeded bytes hle hcap =>
    have hn := Nat.le_trans hle hcap
    exact (State.complete_ended (by simpa using ha.noMatch) hn).inv_of_count
      (Memory.wf_storeResult hs.memory hle hcap) hn

/-- A record that fits ROUT, stored there and counted, leaves the invariant. -/
theorem writeRecord_inv {s : State} {record : List Byte} (hm : Memory.wf s.mem) (hmatch : s.matchFlag = false)
    (hn : record.length ≤ Config.recordMax) : (writeRecord record s).Inv := by
  have hn' : record.length ≤ Config.obufSize := by simp at hn ⊢; omega
  exact (State.complete_ended (by simpa using hmatch) hn').inv_of_count
    (Memory.wf_storeResult hm hn (Nat.le_refl _)) hn'

/-- The halt of an accepted GENSALT leaves the invariant (R249). -/
theorem haltEnvironment_inv {s : State} (hm : Memory.wf s.mem) (hmatch : s.matchFlag = false) (holen : s.olen = 0)
    (hc : decode s.cmd = .ok .genSalt) : s.haltEnvironment.Inv where
  memory := hm
  idle := nofun
  busy := nofun
  halted := by simp
  matched := by simp [hmatch]
  failed := fun _ => ⟨hmatch, holen⟩
  count := by simp [holen]
  haltedBy := fun _ => hc

theorem GenSaltEnd.inv {s t : State} (hs : s.Inv) (ha : s.accepted) (hc : decode s.cmd = .ok .genSalt)
    (h : GenSaltEnd s t) : t.Inv := by
  cases h with
  | failed =>
    exact (ha.failWith_ended .rout .illegal).inv_of_error (by simpa using Memory.wf_forget _ hs.memory) nofun
  | wrote salt _ => exact writeRecord_inv hs.memory ha.noMatch (by rw [saltRecord_length]; decide)
  | halts _ =>
    exact haltEnvironment_inv (by simpa using Memory.wf_forget _ hs.memory) (by simpa using ha.noMatch)
      (by simpa using ha.noCount) (by simpa using hc)
  | waits _ => exact hs

theorem HashEnd.inv {σ : Type} {C : Cipher σ} {returns : Bool} {s t : State} (hs : s.Inv) (ha : s.accepted)
    (h : HashEnd C returns s t) : t.Inv := by
  cases h with
  | failed e he =>
    refine (ha.failWith_ended .rout e).inv_of_error (by simpa using Memory.wf_forget _ hs.memory) ?_
    rcases he with rfl | rfl <;> decide
  | wrote x hp _ =>
    exact writeRecord_inv hs.memory ha.noMatch (Nat.le_trans (hashRecord_length_le C _ _ hp) (by decide))
  | waits _ => exact hs

theorem VerifyEnd.inv {returns : Bool} {s t : State} (hs : s.Inv) (ha : s.accepted)
    (hc : decode s.cmd = .ok .verify) (h : VerifyEnd returns s t) : t.Inv := by
  cases h with
  | failed => exact (ha.raiseError_ended .illegal).inv_of_error hs.memory nofun
  | malformed => exact (State.completeVerify_ended false s).inv_of_verify hs.memory hc
  | compared found _ => exact (State.completeVerify_ended found s.callOver).inv_of_verify hs.memory hc
  | waits _ => exact hs

/-- Executing the accepted command, or raising IllegalError for a word that names none, keeps the invariant. -/
theorem State.Inv.runCommand {s t : State} (hs : s.Inv) (hb : s.seq = .busy) (h : s.runCommand = .next t) :
    t.Inv := by
  have ha := hs.accepted hb
  unfold State.runCommand at h
  split at h
  · next i hc =>
    rcases exec_end h with he | ⟨rfl, he⟩ | ⟨-, he⟩ | ⟨rfl, he⟩
    · exact he.inv hs ha
    · exact he.inv hs ha hc
    · exact he.inv hs ha
    · exact he.inv hs ha hc
  · cases h
    exact (ha.raiseError_ended .illegal).inv_of_error hs.memory nofun

/-! ### A host access and a reset keep the invariant -/

theorem State.Inv.accept {s : State} (hs : s.Inv) (w : Word) : (s.accept w).Inv where
  memory := hs.memory
  idle := nofun
  busy := fun _ => ⟨rfl, rfl, rfl⟩
  halted := by simp
  matched := nofun
  failed := fun h => absurd rfl h
  count := Nat.zero_le _
  haltedBy := nofun

theorem State.Inv.storeReg {s : State} (hs : s.Inv) (r : Reg) (v : Word) : (s.storeReg r v).Inv := by
  cases r with
  | cmd => exact hs.accept v
  | status => exact hs
  | ilen => exact hs.of_sameResults hs.memory rfl ⟨rfl, rfl, rfl, rfl⟩
  | ocap => exact hs.of_sameResults hs.memory rfl ⟨rfl, rfl, rfl, rfl⟩
  | olen => exact hs
  | cost => exact hs.of_sameResults hs.memory rfl ⟨rfl, rfl, rfl, rfl⟩
  | pwlen => exact hs.of_sameResults hs.memory rfl ⟨rfl, rfl, rfl, rfl⟩
  | rlen => exact hs.of_sameResults hs.memory rfl ⟨rfl, rfl, rfl, rfl⟩

theorem State.Inv.writeReg {s : State} (hs : s.Inv) (r : Reg) (v : Word) : (s.writeReg r v).Inv := by
  unfold State.writeReg
  split
  · exact hs.storeReg r v
  · exact hs

theorem State.Inv.writeByte {s : State} (hs : s.Inv) {off : Nat} (hoff : (bufAt off).isSome) (v : Byte) :
    (s.writeByte off v).Inv := by
  unfold State.writeByte
  split
  · exact hs.of_sameResults (Memory.wf_write hs.memory hoff) rfl ⟨rfl, rfl, rfl, rfl⟩
  · exact hs

/-- A read changes only what the model holds of the read's value. -/
theorem State.Inv.read {s : State} (hs : s.Inv) (v : Word) (n : Nat) :
    State.Inv { s with readData := v, draws := n } :=
  hs.of_sameResults hs.memory rfl ⟨rfl, rfl, rfl, rfl⟩

theorem State.applyReset_inv (s : State) : s.applyReset.Inv where
  memory := Memory.wf_nil
  idle := fun _ => ⟨rfl, rfl, rfl, rfl⟩
  busy := nofun
  halted := by simp
  matched := nofun
  failed := fun h => absurd rfl h
  count := Nat.zero_le _
  haltedBy := nofun

/-- Every action of the outside world keeps the invariant. -/
theorem State.Inv.serve {s t : State} (hs : s.Inv) {a : Action} (h : s.serve a = .next t) : t.Inv := by
  cases a with
  | read addr width =>
    rcases State.hostRead_next h with ⟨r, -, rfl⟩ | ⟨off, -, rfl⟩
    · obtain ⟨v, n, e⟩ := State.readReg_eq r s
      exact e ▸ hs.read v n
    · obtain ⟨v, n, e⟩ := State.readByte_eq off s
      exact e ▸ hs.read v n
  | write addr width v =>
    rcases State.hostWrite_next h with ⟨r, -, rfl⟩ | ⟨off, ht, rfl⟩
    · exact hs.writeReg r v
    · exact hs.writeByte (target_byte ht).1 _
  | reset =>
    cases h
    exact s.applyReset_inv

/-- A block with nothing pending keeps the invariant. -/
theorem State.Inv.blockAlone {s t : State} (hs : s.Inv) (h : s.blockAlone = .next t) : t.Inv := by
  unfold State.blockAlone at h
  split at h
  · cases h; exact hs
  · next hb => exact hs.runCommand hb h
  · cases h; exact hs
  · cases h

/-- Settles O60: the step's three cases, each of which keeps the invariant. -/
theorem stepKeepsInvariant : Obligations.StepKeepsInvariant := by
  intro s t hs h
  rcases step_cases s with ⟨-, he⟩ | ⟨-, -, -, hb, -, he⟩ | ⟨e, rest, -, -, he⟩ <;> rw [he] at h
  · exact hs.blockAlone h
  · exact hs.runCommand hb h
  · have hs' : State.Inv { s with pending := rest } :=
      hs.of_sameResults hs.memory rfl ⟨rfl, rfl, rfl, rfl⟩
    exact hs'.serve h

end Sys2Proof.Machine

/-! PROOFS. What commands leave unchanged: the registers of R21 and the input buffers. -/

namespace Sys2Proof.Machine

/-! ### The registers no command writes (R21, R22) -/

theorem State.sameOperands_refl (s : State) : s.sameOperands s := ⟨rfl, rfl, rfl, rfl, rfl, rfl⟩

theorem State.failWith_sameOperands (b : OutBuf) (e : Err) (s : State) : s.sameOperands (s.failWith b e) := by
  constructor <;> simp

theorem CodecEnd.sameOperands {s t : State} (h : CodecEnd s t) : s.sameOperands t := by
  cases h with
  | failed e _ => exact s.failWith_sameOperands .obuf e
  | succeeded bytes _ _ => exact ⟨rfl, rfl, rfl, rfl, rfl, rfl⟩

theorem GenSaltEnd.sameOperands {s t : State} (h : GenSaltEnd s t) : s.sameOperands t := by
  cases h with
  | failed => exact s.failWith_sameOperands .rout .illegal
  | wrote salt _ => exact ⟨rfl, rfl, rfl, rfl, rfl, rfl⟩
  | halts _ => exact ⟨rfl, rfl, rfl, rfl, rfl, rfl⟩
  | waits _ => exact s.sameOperands_refl

theorem HashEnd.sameOperands {σ : Type} {C : Cipher σ} {returns : Bool} {s t : State}
    (h : HashEnd C returns s t) : s.sameOperands t := by
  cases h with
  | failed e _ => exact s.failWith_sameOperands .rout e
  | wrote x _ _ => exact ⟨rfl, rfl, rfl, rfl, rfl, rfl⟩
  | waits _ => exact s.sameOperands_refl

theorem VerifyEnd.sameOperands {returns : Bool} {s t : State} (h : VerifyEnd returns s t) : s.sameOperands t := by
  cases h <;> exact ⟨rfl, rfl, rfl, rfl, rfl, rfl⟩

theorem exec_sameOperands {i : Instr} {s t : State} (h : exec i s = .next t) : s.sameOperands t := by
  rcases exec_end h with he | ⟨-, he⟩ | ⟨-, he⟩ | ⟨-, he⟩ <;> exact he.sameOperands

/-! ### The bytes outside a command's output buffer -/

/-- A result that fits its output buffer changes no byte outside it. -/
theorem State.byteAt_storeResult_outside {b : OutBuf} {cap : Nat} {bytes : List Byte} {s : State} {off : Nat}
    (hle : bytes.length ≤ cap) (hcap : cap ≤ b.buf.size) (hoff : b.buf.has off = false) :
    (s.storeResult b cap bytes).byteAt off = s.byteAt off := by
  rw [has_eq_false_iff] at hoff
  rw [State.byteAt_storeResult s off hle, if_neg (by omega)]

/-- A codec command changes no byte outside OBUF. -/
theorem CodecEnd.byteAt_outside {s t : State} (h : CodecEnd s t) {off : Nat} (hoff : Buf.obuf.has off = false) :
    t.byteAt off = s.byteAt off := by
  cases h with
  | failed e _ => exact State.byteAt_failWith_outside hoff
  | succeeded bytes hle hcap => exact State.byteAt_storeResult_outside hle hcap hoff

theorem writeRecord_byteAt_outside {record : List Byte} {s : State} {off : Nat}
    (hle : record.length ≤ Config.recordMax) (hoff : Buf.rout.has off = false) :
    (writeRecord record s).byteAt off = s.byteAt off :=
  State.byteAt_storeResult_outside (b := .rout) hle (Nat.le_refl _) hoff

/-- GENSALT changes no byte outside ROUT. -/
theorem GenSaltEnd.byteAt_outside {s t : State} (h : GenSaltEnd s t) {off : Nat}
    (hoff : Buf.rout.has off = false) : t.byteAt off = s.byteAt off := by
  cases h with
  | failed => exact State.byteAt_failWith_outside hoff
  | wrote salt _ => exact writeRecord_byteAt_outside (by rw [saltRecord_length]; decide) hoff
  | halts _ => exact State.byteAt_unspecify_outside (b := .rout) (s := s.callOver) hoff
  | waits _ => rfl

/-- HASH changes no byte outside ROUT. -/
theorem HashEnd.byteAt_outside {σ : Type} {C : Cipher σ} {returns : Bool} {s t : State}
    (h : HashEnd C returns s t) {off : Nat} (hoff : Buf.rout.has off = false) : t.byteAt off = s.byteAt off := by
  cases h with
  | failed e _ => exact State.byteAt_failWith_outside hoff
  | wrote x hp _ =>
    exact writeRecord_byteAt_outside (Nat.le_trans (hashRecord_length_le C _ _ hp) (by decide)) hoff
  | waits _ => rfl

/-- VERIFY changes no byte. -/
theorem VerifyEnd.sameBytes {returns : Bool} {s t : State} (h : VerifyEnd returns s t) : s.sameBytes t := by
  cases h <;> exact fun _ => rfl

/-- No command changes a byte outside the two output buffers. -/
theorem exec_byteAt_outside {i : Instr} {s t : State} (h : exec i s = .next t) {off : Nat}
    (hobuf : Buf.obuf.has off = false) (hrout : Buf.rout.has off = false) : t.byteAt off = s.byteAt off := by
  rcases exec_end h with he | ⟨-, he⟩ | ⟨-, he⟩ | ⟨-, he⟩
  · exact he.byteAt_outside hobuf
  · exact he.byteAt_outside hrout
  · exact he.byteAt_outside hrout
  · exact he.sameBytes off

/-- A byte of one buffer lies in no other. -/
theorem has_eq_false_of_ne {b c : Buf} {off : Nat} (hb : b.has off) (hne : b ≠ c) : c.has off = false :=
  Bool.eq_false_iff.mpr fun hc => hne (has_unique hb hc)

/-- Settles O45: each way a command ends keeps the operands, and the bytes outside OBUF and ROUT. -/
theorem commandsWriteNoInput : Obligations.CommandsWriteNoInput := by
  intro i s t h
  refine ⟨exec_sameOperands h, fun b off hobuf hrout hb => ?_⟩
  exact exec_byteAt_outside h (has_eq_false_of_ne hb hobuf) (has_eq_false_of_ne hb hrout)

end Sys2Proof.Machine

/-! PROOFS. The tables: well-formedness, the inverse, the built-in ones, and the refusal of an unusable TBL. -/

namespace Sys2Proof.Machine

theorem symAt_eq_getElem {T : Table} {j : Nat} (h : j < T.length) : symAt T j = T[j] :=
  List.getD_eq_getElem T 0 h

/-- The data symbols of a table of 65 are those of its first 64 entries. -/
theorem take_all_ne_zero_iff {T : Table} (hl : T.length = 65) :
    (T.take 64).all (· != 0) = true ↔ ∀ j < 64, symAt T j ≠ 0 := by
  have hl64 : (T.take 64).length = 64 := by rw [List.length_take, hl]; rfl
  simp only [List.all_eq_true, List.forall_mem_iff_forall_getElem, hl64, bne_iff_ne, List.getElem_take]
  exact forall₂_congr fun j hj => by rw [symAt_eq_getElem (by omega)]

/-- All entries of a table of 65 are distinct, by index. -/
theorem pairwise_ne_iff {T : Table} (hl : T.length = 65) :
    T.Pairwise (· ≠ ·) ↔ ∀ j k, j < k → k ≤ 64 → symAt T j ≠ symAt T k := by
  rw [List.pairwise_iff_getElem]
  constructor
  · intro h j k hjk hk
    rw [symAt_eq_getElem (by omega), symAt_eq_getElem (by omega)]
    exact h j k (by omega) (by omega) hjk
  · intro h j k hj hk hjk
    rw [← symAt_eq_getElem hj, ← symAt_eq_getElem hk]
    exact h j k hjk (by omega)

theorem tableWF_iff (T : Table) :
    tableWF T = true ↔
      T.length = 65 ∧ (∀ j < 64, symAt T j ≠ 0) ∧ ∀ j k, j < k → k ≤ 64 → symAt T j ≠ symAt T k := by
  rw [tableWF, Bool.and_eq_true, Bool.and_eq_true, beq_iff_eq, decide_eq_true_iff, and_assoc]
  exact and_congr_right fun hl => and_congr (take_all_ne_zero_iff hl) (pairwise_ne_iff hl)

/-- Settles O10: the three conjuncts of the check, each read off by index. -/
theorem tableWellFormedness : Obligations.TableWellFormedness := tableWF_iff

/-- No entry of a well-formed table stands at two indices. -/
theorem symAt_injective {T : Table} (hT : tableWF T = true) {j k : Nat} (hj : j ≤ 64) (hk : k ≤ 64)
    (h : symAt T j = symAt T k) : j = k := by
  obtain ⟨-, -, hne⟩ := (tableWF_iff T).1 hT
  rcases Nat.lt_trichotomy j k with hjk | rfl | hjk
  · exact absurd h (hne j k hjk hk)
  · rfl
  · exact absurd h.symm (hne k j hjk hj)

theorem inv_eq_some_iff {T : Table} (hT : tableWF T = true) (c : Byte) (j : Nat) :
    inv T c = some j ↔ j ≤ 64 ∧ symAt T j = c := by
  obtain ⟨hl, -, -⟩ := (tableWF_iff T).1 hT
  rw [inv, List.idxOf?_eq_some_iff]
  constructor
  · rintro ⟨hj, hc, -⟩
    exact ⟨by omega, (symAt_eq_getElem hj).trans hc⟩
  · rintro ⟨hj, rfl⟩
    refine ⟨by omega, (symAt_eq_getElem _).symm, fun k hk hc => ?_⟩
    rw [← symAt_eq_getElem] at hc
    have := symAt_injective hT (by omega) hj hc
    omega

theorem inv_eq_none_iff {T : Table} (hT : tableWF T = true) (c : Byte) :
    inv T c = none ↔ ∀ j ≤ 64, symAt T j ≠ c := by
  rw [Option.eq_none_iff_forall_ne_some]
  simp only [ne_eq, inv_eq_some_iff hT, not_and]

/-- Settles O12: the entries are distinct, so the first index of `c` is the only one. -/
theorem inverseTableInverts : Obligations.InverseTableInverts := fun _ c hT =>
  ⟨inv_eq_some_iff hT c, inv_eq_none_iff hT c⟩

/-- Settles O11: closed facts, the tables evaluated entry by entry. -/
theorem builtInTables : Obligations.BuiltInTables := by
  unfold Obligations.BuiltInTables
  decide +kernel

/-- A TBL with an unwritten byte, or one that is not well-formed, has no meaning (R34, R284). -/
theorem State.hostTableUsable_eq_false {s : State}
    (h : (∃ j < 65, Memory.find s.mem (0x40 + j) = none) ∨ tableWF (s.readBytes 0x40 65) = false) :
    s.hostTableUsable = false := by
  rw [State.hostTableUsable, Bool.and_eq_false_iff]
  rcases h with ⟨j, hj, hnone⟩ | hwf
  · refine .inl (List.all_eq_false.mpr ⟨j, List.mem_range.mpr hj, ?_⟩)
    rw [base_tbl, hnone]
    decide
  · exact .inr hwf

/-- Settles O23: the operand check passes and the table check does not. -/
theorem unusableTableIsRefused : Obligations.UnusableTableIsRefused := by
  intro i s hi hilen hocap htbl
  have hops : s.codecOperandsOk = true := s.codecOperandsOk_iff.2 ⟨hilen, hocap⟩
  have hunusable : ¬s.hostTableUsable = true := by simp [State.hostTableUsable_eq_false htbl]
  rcases hi with rfl | rfl
  · rw [exec_encodeA, execEncodeA, if_pos hops, if_neg hunusable]
  · rw [exec_decodeA, execDecodeA, if_pos hops, if_neg hunusable]

end Sys2Proof.Machine

/-! PROOFS. STATUS, register writes and the reset values. -/

namespace Sys2Proof.Machine

/-! ### The fields of STATUS (R23) -/

theorem State.statusWord_state (s : State) : s.statusWord.extractLsb' 0 2 = s.seq.code :=
  BitVec.extractLsb'_append_eq_right

theorem State.statusWord_err (s : State) : s.statusWord.extractLsb' 2 3 = s.err.code := by
  rw [State.statusWord, BitVec.extractLsb'_append_eq_of_le (by omega)]
  exact BitVec.extractLsb'_append_eq_right

theorem State.statusWord_match (s : State) : s.statusWord.getLsbD 5 = s.matchFlag := by
  simp only [State.statusWord, BitVec.getLsbD_append]
  simp

theorem State.statusWord_zero (s : State) : s.statusWord.extractLsb' 6 26 = 0 := by
  rw [State.statusWord, BitVec.extractLsb'_append_eq_of_le (by omega),
    BitVec.extractLsb'_append_eq_of_le (by omega)]
  exact BitVec.extractLsb'_append_eq_left

/-- Settles O56: the fields of the word, then the codes of SEQ and of ERR. -/
theorem statusFields : Obligations.StatusFields := by
  intro s
  refine ⟨?_, ?_, s.statusWord_match, s.statusWord_zero⟩
  · rw [s.statusWord_state]
    cases s.seq <;> rfl
  · rw [s.statusWord_err]
    cases s.err <;> rfl

/-! ### Host writes to a block that takes them -/

/-- A word access at a register's offset reaches that register (R61, R64). -/
theorem target_reg (r : Reg) : target (Config.base + r.offset) 4 = .reg r := by cases r <;> rfl

/-- A block with no command running serves the first pending action. -/
theorem step_serves {s : State} {e : Event} {rest : List Event} (hs : s.seq ≠ .busy)
    (hp : s.pending = e :: rest) : step s = State.serve e.action { s with pending := rest } := by
  unfold step
  rw [hp]
  simp [State.commandFirst, hs]

/-- A word write to a register of a block that is IDLE or DONE stores there (R66). -/
theorem step_storeReg {s : State} {b : Bool} {r : Reg} {v : Word} {rest : List Event}
    (hs : s.seq = .idle ∨ s.seq = .done) (hp : s.pending = ⟨b, .write (Config.base + r.offset) 4 v⟩ :: rest) :
    step s = .next (State.storeReg r v { s with pending := rest }) := by
  have hbusy : s.seq ≠ .busy := by rcases hs with h | h <;> simp [h]
  have hopen : State.hostOpen { s with pending := rest } = true := by
    rcases hs with h | h <;> simp [State.hostOpen, h]
  rw [step_serves hbusy hp, State.serve, State.hostWrite, target_reg]
  simp only [State.writeReg, hopen, if_true]

/-- Settles O49: the write stores, and what `storeReg` stores is read off register by register. -/
theorem registerWrites : Obligations.RegisterWrites := by
  intro s b r v rest hs hne hp
  rw [step_storeReg hs hp]
  cases r with
  | cmd => exact absurd rfl hne
  | status => rfl
  | ilen => rfl
  | ocap => rfl
  | olen => rfl
  | cost => rfl
  | pwlen => rfl
  | rlen => rfl

/-- Settles O57: closed facts of the one state `State.reset`. -/
theorem resetValues : Obligations.ResetValues :=
  ⟨rfl, by decide, fun r => by cases r <;> decide, rfl⟩

end Sys2Proof.Machine

/-! PROOFS. Only ENCODE.A and DECODE.A read TBL: states that differ in TBL alone, and what a command makes of
them. -/

namespace Sys2Proof.Machine

/-- The bytes of an unspecified output buffer are free values of that draw (R246). -/
theorem State.byteAt_unspecify_inside {b : OutBuf} {s : State} {off : Nat} (h : b.buf.has off = true) :
    (s.unspecify b).byteAt off = Config.freeByte s.draws off := by
  have hepoch : (s.unspecify b).epochAt off = s.draws := by
    cases b with
    | obuf => rw [buf_obuf] at h; simp [State.epochAt, h]
    | rout =>
      rw [buf_rout] at h
      simp [State.epochAt, h, has_eq_false_of_ne (c := .obuf) h nofun]
  rw [State.byteAt, hepoch, State.unspecify_mem, Memory.find_forget, if_pos h, Option.getD_none]

/-! ### States that differ in TBL alone -/

/-- All fields but the memory are equal, and the bytes outside TBL. -/
structure State.DiffersInTbl (s u : State) : Prop where
  fields : ∃ m, u = { s with mem := m }
  bytes : s.sameBytesOutside 0x40 65 u

theorem State.storeBytes_differsInTbl {bytes : List Byte} (h : bytes.length ≤ 65) (s : State) :
    s.DiffersInTbl (s.storeBytes 0x40 bytes) :=
  ⟨⟨_, rfl⟩, fun _ hoff => State.byteAt_storeBytes_outside (by omega)⟩

namespace State.DiffersInTbl

variable {s u : State}

/-! #### The operands, and the answers of the capabilities, are equal -/

theorem ilen (h : s.DiffersInTbl u) : u.ilen = s.ilen := by obtain ⟨⟨m, rfl⟩, -⟩ := h; rfl
theorem ocap (h : s.DiffersInTbl u) : u.ocap = s.ocap := by obtain ⟨⟨m, rfl⟩, -⟩ := h; rfl
theorem cost (h : s.DiffersInTbl u) : u.cost = s.cost := by obtain ⟨⟨m, rfl⟩, -⟩ := h; rfl
theorem pwlen (h : s.DiffersInTbl u) : u.pwlen = s.pwlen := by obtain ⟨⟨m, rfl⟩, -⟩ := h; rfl
theorem rlen (h : s.DiffersInTbl u) : u.rlen = s.rlen := by obtain ⟨⟨m, rfl⟩, -⟩ := h; rfl
theorem calls (h : s.DiffersInTbl u) : u.calls = s.calls := by obtain ⟨⟨m, rfl⟩, -⟩ := h; rfl

theorem codecOperandsOk (h : s.DiffersInTbl u) : u.codecOperandsOk = s.codecOperandsOk := by
  rw [State.codecOperandsOk, State.codecOperandsOk, h.ilen, h.ocap]

theorem costOk (h : s.DiffersInTbl u) : u.costOk = s.costOk := by
  rw [State.costOk, State.costOk, h.cost]

theorem recordOperandsOk (h : s.DiffersInTbl u) : u.recordOperandsOk = s.recordOperandsOk := by
  rw [State.recordOperandsOk, State.recordOperandsOk, h.pwlen, h.rlen]

theorem drawAnswer (h : s.DiffersInTbl u) : u.drawAnswer = s.drawAnswer := by
  rw [State.drawAnswer, State.drawAnswer, h.calls]

theorem cipherReturns (h : s.DiffersInTbl u) : u.cipherReturns = s.cipherReturns := by
  rw [State.cipherReturns, State.cipherReturns, h.calls]

/-- Bytes read from above TBL are equal. -/
theorem readBytes (h : s.DiffersInTbl u) {off : Nat} (hoff : 0x40 + 65 ≤ off) (n : Nat) :
    u.readBytes off n = s.readBytes off n :=
  State.readBytes_congr fun i _ => h.bytes (off + i) (by omega)

theorem inputBytes (h : s.DiffersInTbl u) : u.inputBytes = s.inputBytes := by
  rw [State.inputBytes, State.inputBytes, h.ilen, h.readBytes (by decide)]

theorem inputText (h : s.DiffersInTbl u) : u.inputText = s.inputText := congrArg textOf h.inputBytes

theorem password (h : s.DiffersInTbl u) : u.password = s.password := by
  rw [State.password, State.password, h.pwlen, h.readBytes (by decide)]

theorem recordText (h : s.DiffersInTbl u) : u.recordText = s.recordText := by
  rw [State.recordText, State.recordText, h.rlen, h.readBytes (by decide)]

/-! #### The shared operations keep the relation -/

theorem callOver (h : s.DiffersInTbl u) : s.callOver.DiffersInTbl u.callOver := by
  obtain ⟨⟨m, rfl⟩, hbytes⟩ := h
  exact ⟨⟨m, rfl⟩, hbytes⟩

theorem raiseError (h : s.DiffersInTbl u) (e : Err) : (s.raiseError e).DiffersInTbl (u.raiseError e) := by
  obtain ⟨⟨m, rfl⟩, hbytes⟩ := h
  exact ⟨⟨m, rfl⟩, hbytes⟩

theorem haltEnvironment (h : s.DiffersInTbl u) : s.haltEnvironment.DiffersInTbl u.haltEnvironment := by
  obtain ⟨⟨m, rfl⟩, hbytes⟩ := h
  exact ⟨⟨m, rfl⟩, hbytes⟩

theorem complete (h : s.DiffersInTbl u) (n : Nat) : (s.complete n).DiffersInTbl (u.complete n) := by
  obtain ⟨⟨m, rfl⟩, hbytes⟩ := h
  exact ⟨⟨m, rfl⟩, hbytes⟩

theorem completeVerify (h : s.DiffersInTbl u) (found : Bool) :
    (s.completeVerify found).DiffersInTbl (u.completeVerify found) := by
  obtain ⟨⟨m, rfl⟩, hbytes⟩ := h
  exact ⟨⟨m, rfl⟩, hbytes⟩

theorem storeResult (h : s.DiffersInTbl u) (b : OutBuf) (cap : Nat) (bytes : List Byte) :
    (s.storeResult b cap bytes).DiffersInTbl (u.storeResult b cap bytes) := by
  refine ⟨?_, fun off hoff => ?_⟩
  · obtain ⟨⟨m, rfl⟩, -⟩ := h
    exact ⟨_, rfl⟩
  · rw [State.storeResult, State.storeResult, State.byteAt_storeBytes, State.byteAt_storeBytes, h.bytes off hoff]

theorem unspecify (h : s.DiffersInTbl u) (b : OutBuf) : (s.unspecify b).DiffersInTbl (u.unspecify b) := by
  refine ⟨?_, fun off hoff => ?_⟩
  · obtain ⟨⟨m, rfl⟩, -⟩ := h
    exact ⟨Memory.forget m b.buf, by cases b <;> rfl⟩
  · by_cases hb : b.buf.has off = true
    · obtain ⟨⟨m, rfl⟩, -⟩ := h
      rw [State.byteAt_unspecify_inside hb, State.byteAt_unspecify_inside hb]
    · rw [Bool.not_eq_true] at hb
      rw [State.byteAt_unspecify_outside hb, State.byteAt_unspecify_outside hb, h.bytes off hoff]

theorem failWith (h : s.DiffersInTbl u) (b : OutBuf) (e : Err) :
    (s.failWith b e).DiffersInTbl (u.failWith b e) := (h.unspecify b).raiseError e

theorem writeRecord (h : s.DiffersInTbl u) (record : List Byte) :
    (writeRecord record s).DiffersInTbl (writeRecord record u) := (h.storeResult _ _ _).complete _

end State.DiffersInTbl

/-! ### The commands that do not read TBL -/

/-- Both runs answer a next state, and these differ in TBL alone. -/
def NextDiffersInTbl (x y : Outcome) : Prop := ∃ t v, x = .next t ∧ y = .next v ∧ t.DiffersInTbl v

theorem State.DiffersInTbl.next {t v : State} (h : t.DiffersInTbl v) : NextDiffersInTbl (.next t) (.next v) :=
  ⟨t, v, rfl, rfl, h⟩

theorem encodeWith_congr {s u : State} (h : s.DiffersInTbl u) (T : Table) :
    NextDiffersInTbl (encodeWith T s) (encodeWith T u) := by
  unfold encodeWith
  rw [h.inputBytes, h.ilen, h.ocap]
  split
  · exact (h.failWith .obuf .capacity).next
  · exact ((h.storeResult .obuf _ _).complete _).next

theorem decodeWith_congr {s u : State} (h : s.DiffersInTbl u) (T : Table) :
    NextDiffersInTbl (decodeWith T s) (decodeWith T u) := by
  unfold decodeWith
  rw [h.inputText, h.ocap]
  split
  · exact (h.failWith .obuf .format).next
  · split
    · exact (h.failWith .obuf .capacity).next
    · exact ((h.storeResult .obuf _ _).complete _).next

theorem genSaltAnswered_congr {s u : State} (h : s.DiffersInTbl u) (answer : DrawAnswer) :
    (genSaltAnswered answer s).DiffersInTbl (genSaltAnswered answer u) := by
  cases answer with
  | bytes salt => rw [genSaltAnswered, genSaltAnswered, h.cost]; exact h.callOver.writeRecord _
  | unavailable => exact (h.callOver.unspecify .rout).haltEnvironment
  | never => exact h

theorem withCipherCalls_congr {s u : State} (h : s.DiffersInTbl u) (returns : Bool) {finish : State → State}
    (hfinish : (finish s.callOver).DiffersInTbl (finish u.callOver)) :
    (withCipherCalls returns finish s).DiffersInTbl (withCipherCalls returns finish u) := by
  cases returns with
  | true => exact hfinish
  | false => exact h

theorem hashWith_congr {σ : Type} (C : Cipher σ) (returns : Bool) {s u : State} (h : s.DiffersInTbl u) :
    NextDiffersInTbl (hashWith C returns s) (hashWith C returns u) := by
  unfold hashWith
  rw [h.recordOperandsOk, h.recordText, h.password]
  split
  · split
    · exact (h.failWith .rout .format).next
    · exact (withCipherCalls_congr h returns (h.callOver.writeRecord _)).next
  · exact (h.failWith .rout .illegal).next

theorem verifyWith_congr {σ : Type} (C : Cipher σ) (returns : Bool) {s u : State} (h : s.DiffersInTbl u) :
    NextDiffersInTbl (verifyWith C returns s) (verifyWith C returns u) := by
  unfold verifyWith
  rw [h.recordOperandsOk, h.recordText, h.password]
  split
  · split
    · exact (h.completeVerify false).next
    · exact (withCipherCalls_congr h returns (h.callOver.completeVerify _)).next
  · exact (h.raiseError .illegal).next

/-- The five commands other than ENCODE.A and DECODE.A make of two states that differ in TBL alone two such
states. -/
theorem exec_congr {i : Instr} (hencode : i ≠ .encodeA) (hdecode : i ≠ .decodeA) {s u : State}
    (h : s.DiffersInTbl u) : NextDiffersInTbl (exec i s) (exec i u) := by
  cases i with
  | encodeA => exact absurd rfl hencode
  | decodeA => exact absurd rfl hdecode
  | encodeD =>
    rw [exec_encodeD, exec_encodeD, execEncodeD, execEncodeD, h.codecOperandsOk]
    split
    · exact encodeWith_congr h dtbl
    · exact (h.failWith .obuf .illegal).next
  | decodeD =>
    rw [exec_decodeD, exec_decodeD, execDecodeD, execDecodeD, h.codecOperandsOk]
    split
    · exact decodeWith_congr h dtbl
    · exact (h.failWith .obuf .illegal).next
  | genSalt =>
    rw [exec_genSalt, exec_genSalt, execGenSalt, execGenSalt, h.costOk, h.drawAnswer]
    split
    · exact (genSaltAnswered_congr h _).next
    · exact (h.failWith .rout .illegal).next
  | hash =>
    rw [exec_hash, exec_hash, execHash, execHash, h.cipherReturns]
    exact hashWith_congr _ _ h
  | verify =>
    rw [exec_verify, exec_verify, execVerify, execVerify, h.cipherReturns]
    exact verifyWith_congr _ _ h

/-- Settles O46: storing to TBL makes a state that differs in TBL alone, and `exec_congr` compares the runs. -/
theorem onlyHostTableCommandsReadTbl : Obligations.OnlyHostTableCommandsReadTbl := by
  intro i s t bytes hencode hdecode hlen ht
  obtain ⟨t₁, t', h₁, h', hdiff⟩ := exec_congr hencode hdecode (s.storeBytes_differsInTbl hlen)
  obtain rfl : t₁ = t := Host.Outcome.next.inj (h₁.symm.trans ht)
  obtain ⟨hcmd, hilen, hocap, hcost, hpwlen, hrlen⟩ := exec_sameOperands h'
  obtain ⟨⟨m, rfl⟩, hbytes⟩ := hdiff
  exact ⟨_, h', ⟨hcmd, hilen, hocap, hcost, hpwlen, hrlen⟩, ⟨rfl, rfl, rfl, rfl⟩, ⟨rfl, rfl⟩, rfl, hbytes⟩

end Sys2Proof.Machine

/-! PROOFS. Host accesses: what the map reaches, the refusal of everything else, and reads and writes in each
state of the sequencer. -/

namespace Sys2Proof.Machine

/-! ### The address map (R61, R64, R65) -/

theorem Reg.eq_offset_of_atOffset {off : Nat} {r : Reg} (h : Reg.atOffset off = some r) : off = r.offset := by
  unfold Reg.atOffset at h
  split at h <;> cases h <;> rfl

/-- Only the aligned word at a register's offset reaches it: the converse of `target_reg`. -/
theorem eq_offset_of_target_reg {addr width : Nat} {r : Reg} (h : target addr width = .reg r) :
    addr = Config.base + r.offset ∧ width = 4 := by
  unfold target at h
  split at h
  · unfold targetAt at h
    split at h
    · split at h
      · next hr =>
        split at h <;> cases h
        have := Reg.eq_offset_of_atOffset hr
        exact ⟨by omega, ‹_›⟩
      · cases h
    · split at h
      · split at h <;> cases h
      · cases h
  · cases h

/-- The buffers lie after the registers and inside the window. -/
theorem has_bounds {b : Buf} {off : Nat} (h : b.has off) : regEnd ≤ off ∧ off < Config.windowSize := by
  rw [has_iff] at h
  cases b <;> simp [regEnd] at h ⊢ <;> omega

/-- A byte access inside a buffer reaches that byte: the converse of `target_byte`. -/
theorem target_of_has {b : Buf} {off : Nat} (h : b.has off) : target (Config.base + off) 1 = .byte off := by
  obtain ⟨hlo, hhi⟩ := has_bounds h
  rw [target, if_pos (by omega), Nat.add_sub_cancel_left, targetAt, if_neg (Nat.not_lt.2 hlo), bufAt_of_has h]
  rfl

theorem exists_has_of_bufAt_isSome {off : Nat} (h : (bufAt off).isSome) : ∃ b : Buf, b.has off :=
  (Option.isSome_iff_exists.1 h).imp fun _ => has_of_bufAt

/-- The six ranges of the map. -/
theorem exists_has_iff (off : Nat) :
    (∃ b : Buf, b.has off) ↔
      (0x40 ≤ off ∧ off < 0x40 + 65) ∨ (0xC0 ≤ off ∧ off < 0xC0 + 64) ∨ (0x100 ≤ off ∧ off < 0x100 + 64) ∨
        (0x200 ≤ off ∧ off < 0x200 + Config.pwMax) ∨ (0x1000 ≤ off ∧ off < 0x1000 + Config.ibufSize) ∨
        (0x2000 ≤ off ∧ off < 0x2000 + Config.obufSize) := by
  simp only [has_iff]
  constructor
  · rintro ⟨b, h⟩
    cases b with
    | tbl => exact .inl h
    | rin => exact .inr (.inl h)
    | rout => exact .inr (.inr (.inl h))
    | pwbuf => exact .inr (.inr (.inr (.inl h)))
    | ibuf => exact .inr (.inr (.inr (.inr (.inl h))))
    | obuf => exact .inr (.inr (.inr (.inr (.inr h))))
  · rintro (h | h | h | h | h | h)
    · exact ⟨.tbl, h⟩
    · exact ⟨.rin, h⟩
    · exact ⟨.rout, h⟩
    · exact ⟨.pwbuf, h⟩
    · exact ⟨.ibuf, h⟩
    · exact ⟨.obuf, h⟩

/-- Settles O47: what `target` reaches, in both directions, for registers and for buffer bytes. -/
theorem addressMap : Obligations.AddressMap := by
  refine ⟨fun off width r => ⟨fun h => ?_, ?_⟩, fun off width o => ?_⟩
  · obtain ⟨haddr, hwidth⟩ := eq_offset_of_target_reg h
    exact ⟨Nat.add_left_cancel haddr, hwidth⟩
  · rintro ⟨rfl, rfl⟩
    exact target_reg r
  · rw [← exists_has_iff]
    constructor
    · intro h
      obtain ⟨hbuf, hwidth, haddr⟩ := target_byte h
      obtain rfl : off = o := Nat.add_left_cancel haddr
      exact ⟨rfl, hwidth, exists_has_of_bufAt_isSome hbuf⟩
    · rintro ⟨rfl, rfl, b, hb⟩
      exact target_of_has hb

/-! ### The first pending action is served -/

/-- An action that no running command holds back is served. -/
theorem step_serves_unheld {s : State} {b : Bool} {a : Action} {rest : List Event} (hb : s.seq = .busy → b = true)
    (hp : s.pending = ⟨b, a⟩ :: rest) : step s = State.serve a { s with pending := rest } := by
  by_cases hs : s.seq = .busy
  · unfold step
    rw [hp]
    simp [State.commandFirst, hb hs]
  · exact step_serves hs hp

namespace State

/-! ### Accesses to neither a register nor a byte (R62) -/

section Unmapped
variable {addr width : Nat} (hreg : ∀ r, target addr width ≠ .reg r) (hbyte : ∀ o, target addr width ≠ .byte o)
include hreg hbyte

theorem hostRead_refused (s : State) :
    s.hostRead addr width = .refused .unmappedAccess ∨ s.hostRead addr width = .refused .badAccess := by
  unfold hostRead
  split
  · next r h => exact absurd h (hreg r)
  · next o h => exact absurd h (hbyte o)
  · exact .inl rfl
  · exact .inr rfl

theorem hostWrite_refused (v : Word) (s : State) :
    s.hostWrite addr width v = .refused .unmappedAccess ∨ s.hostWrite addr width v = .refused .badAccess := by
  unfold hostWrite
  split
  · next r h => exact absurd h (hreg r)
  · next o h => exact absurd h (hbyte o)
  · exact .inl rfl
  · exact .inr rfl

end Unmapped

/-! ### Accesses to a register or a byte -/

theorem hostOpen_iff (s : State) : s.hostOpen = true ↔ s.seq = .idle ∨ s.seq = .done := by
  simp [hostOpen]

theorem seq_ne_busy_of_open {s : State} (h : s.seq = .idle ∨ s.seq = .done) : s.seq ≠ .busy := by
  rcases h with h | h <;> simp [h]

theorem regReadable_of_open {s : State} (h : s.seq = .idle ∨ s.seq = .done) (r : Reg) :
    s.regReadable r = true := by
  rcases h with h | h <;> simp [regReadable, h]

/-- STATUS is defined to the host in every state (R73, R74). -/
theorem regReadable_status (s : State) : s.regReadable .status = true := by
  unfold regReadable
  cases s.seq <;> rfl

/-- A read of a register whose value is defined returns it (R64, R67). -/
theorem hostRead_readable {s : State} {addr width : Nat} {r : Reg} {v : Word} (ht : target addr width = .reg r)
    (hr : s.regReadable r = true) (hv : s.regValue r = v) :
    s.hostRead addr width = .next { s with readData := v } := by
  subst hv
  rw [hostRead, ht]
  simp only [readReg, hr, if_true]
  rfl

section Mapped
variable {s : State} {addr width : Nat}
  (hm : (∃ r, target addr width = .reg r) ∨ ∃ o, target addr width = .byte o)
include hm

/-- A mapped read changes at most the value returned and the count of draws (R67, R73, R74). -/
theorem hostRead_mapped : ∃ v n, s.hostRead addr width = .next { s with readData := v, draws := n } := by
  rcases hm with ⟨r, ht⟩ | ⟨off, ht⟩
  · obtain ⟨v, n, e⟩ := readReg_eq r s
    exact ⟨v, n, by simp only [hostRead, ht, e]⟩
  · obtain ⟨v, n, e⟩ := readByte_eq off s
    exact ⟨v, n, by simp only [hostRead, ht, e]⟩

/-- A block that takes no host writes drops a mapped one (R73, R74). -/
theorem hostWrite_dropped (hs : s.hostOpen = false) (v : Word) : s.hostWrite addr width v = .next s := by
  rcases hm with ⟨r, ht⟩ | ⟨off, ht⟩
  · simp [hostWrite, ht, writeReg, hs]
  · simp [hostWrite, ht, writeByte, hs]

end Mapped
end State

/-- Settles O48: the action is served, and its access is refused. -/
theorem otherAccessesAreRefused : Obligations.OtherAccessesAreRefused := by
  intro s b rest addr width v hreg hbyte hb hp
  rcases hp with hp | hp <;> rw [step_serves_unheld hb hp]
  · exact State.hostRead_refused hreg hbyte _
  · exact State.hostWrite_refused hreg hbyte v _

/-! ### IDLE and DONE (R65 to R67) -/

/-- A byte write inside a buffer of a block that is IDLE or DONE stores there (R66). -/
theorem step_storeByte {s : State} {b : Bool} {buf : Buf} {off : Nat} {v : Word} {rest : List Event}
    (hs : s.seq = .idle ∨ s.seq = .done) (hoff : buf.has off)
    (hp : s.pending = ⟨b, .write (Config.base + off) 1 v⟩ :: rest) :
    step s = .next (State.storeBytes off [v.setWidth 8] { s with pending := rest }) := by
  have hopen : State.hostOpen { s with pending := rest } = true := (State.hostOpen_iff _).2 hs
  rw [step_serves (State.seq_ne_busy_of_open hs) hp, State.serve, State.hostWrite, target_of_has hoff]
  simp only [State.writeByte, hopen, if_true]

theorem has_base_add {b : Buf} {j : Nat} (hj : j < b.size) : b.has (b.base + j) :=
  (has_iff _ _).2 ⟨Nat.le_add_right _ _, Nat.add_lt_add_left hj _⟩

/-- Settles O50: the write stores one byte, and the laws of `storeBytes` give the bytes of the new state. -/
theorem bufferWrites : Obligations.BufferWrites := by
  intro s b buf j v rest hs hj hp
  refine ⟨_, step_storeByte hs (has_base_add hj) hp, ?_, fun off hoff => ?_, ⟨rfl, rfl, rfl, rfl, rfl, rfl⟩,
    ⟨rfl, rfl, rfl, rfl⟩, rfl, rfl⟩
  · rw [State.byteAt_storeBytes, if_pos (by simp), Nat.sub_self, List.getD_cons_zero]
  · exact State.byteAt_storeBytes_outside hoff

/-- A byte read inside a buffer of a block that is IDLE or DONE returns the byte (R65, R67). -/
theorem step_readByte {s : State} {b : Bool} {buf : Buf} {off : Nat} {rest : List Event}
    (hs : s.seq = .idle ∨ s.seq = .done) (hoff : buf.has off)
    (hp : s.pending = ⟨b, .read (Config.base + off) 1⟩ :: rest) :
    step s = .next { s with pending := rest, readData := (s.byteAt off).setWidth 32 } := by
  have hopen : State.hostOpen { s with pending := rest } = true := (State.hostOpen_iff _).2 hs
  rw [step_serves (State.seq_ne_busy_of_open hs) hp, State.serve, State.hostRead, target_of_has hoff]
  simp only [State.readByte, hopen, if_true]
  rfl

/-- Settles O51: in IDLE and DONE every register and every byte is defined to the host. -/
theorem readsHaveNoSideEffect : Obligations.ReadsHaveNoSideEffect := by
  intro s b rest hs
  refine ⟨fun r hp => ?_, fun buf j hj hp => step_readByte hs (has_base_add hj) hp⟩
  rw [step_serves (State.seq_ne_busy_of_open hs) hp]
  exact State.hostRead_readable (target_reg r) (State.regReadable_of_open hs r) rfl

/-! ### BUSY (R73) and HALTED (R74) -/

theorem State.accepted.statusWord {s : State} (h : s.accepted) : s.statusWord = 0x00000001 := by
  obtain ⟨hseq, herr, hmatch, -⟩ := h
  rw [State.statusWord, hseq, herr, hmatch]
  decide

/-- Settles O52: an access marked so is served while BUSY, when writes are dropped and STATUS alone is
defined. -/
theorem accessesWhileBusy : Obligations.AccessesWhileBusy := by
  intro s rest addr width v hacc hm
  have hclosed : State.hostOpen { s with pending := rest } = false := by simp [State.hostOpen, hacc.1]
  refine ⟨fun hp => ?_, fun hp ht => ?_, fun hp _ => ?_⟩ <;> rw [step_serves_unheld (fun _ => rfl) hp]
  · exact State.hostWrite_dropped hm hclosed v
  · exact State.hostRead_readable ht (State.regReadable_status _) hacc.statusWord
  · exact State.hostRead_mapped hm

/-- What the halt leaves in ERR, MATCH and OLEN (R249). -/
theorem State.Inv.halted_results {s : State} (h : s.Inv) (hs : s.seq = .halted) :
    s.err = .environment ∧ s.matchFlag = false ∧ s.olen = 0 := by
  have herr := h.halted.1 hs
  exact ⟨herr, h.failed (by simp [herr])⟩

theorem State.Inv.statusWord_halted {s : State} (h : s.Inv) (hs : s.seq = .halted) :
    s.statusWord = 0x0000000F := by
  obtain ⟨herr, hmatch, -⟩ := h.halted_results hs
  rw [State.statusWord, hs, herr, hmatch]
  decide

/-- Settles O53: a HALTED block drops writes, and STATUS and OLEN, which the invariant gives, are defined. -/
theorem accessesWhileHalted : Obligations.AccessesWhileHalted := by
  intro s b rest addr width v hinv hs hm
  have hclosed : State.hostOpen { s with pending := rest } = false := by simp [State.hostOpen, hs]
  have hbusy : s.seq ≠ .busy := by simp [hs]
  refine ⟨fun hp => ?_, fun hp ht => ?_, fun hp ht => ?_, fun hp _ _ => ?_⟩ <;> rw [step_serves hbusy hp]
  · exact State.hostWrite_dropped hm hclosed v
  · exact State.hostRead_readable ht (State.regReadable_status _) (hinv.statusWord_halted hs)
  · exact State.hostRead_readable ht (by simp [State.regReadable, hs]) (hinv.halted_results hs).2.2
  · exact State.hostRead_mapped hm

end Sys2Proof.Machine

/-! PROOFS. Command words: the decoder and the encoder agree, and what a word that names no command ends in. -/

namespace Sys2Proof.Machine

/-! ### A word is its three fields (R90) -/

theorem word_eq_fields (w : Word) : w = zeroField w ++ BitVec.ofBool (tselField w) ++ opField w := by
  apply BitVec.eq_of_getLsbD_eq
  intro i hi
  simp only [zeroField, tselField, opField, BitVec.getLsbD_append, BitVec.getLsbD_extractLsb',
    BitVec.getLsbD_ofBool]
  rcases lt_trichotomy i 3 with hop | rfl | hzero
  · simp [hop]
  · rfl
  · simp [show ¬ i < 3 by omega, show ¬ i - 3 < 1 by omega, show i - 3 - 1 < 28 by omega,
      show 4 + (i - 3 - 1) = i by omega]

theorem and_seven_eq_opField (w : Word) : w &&& 7 = (opField w).setWidth 32 := by
  apply BitVec.eq_of_toNat_eq
  simp [opField, Nat.and_two_pow_sub_one_eq_mod _ 3]
  omega

theorem and_eight_ne_zero_iff (w : Word) : w &&& 8 ≠ 0 ↔ tselField w = true := by
  rw [show (8 : Word) = BitVec.twoPow 32 3 from rfl, BitVec.and_twoPow, tselField]
  cases w.getLsbD 3 <;> decide

theorem shiftRight_four_ne_zero_iff (w : Word) : w >>> 4 ≠ 0 ↔ zeroField w ≠ 0 := by
  rw [not_iff_not, ← BitVec.toNat_inj, ← BitVec.toNat_inj]
  simp [zeroField]
  omega

/-! ### The words that name a command (R91) and those that name none (R94) -/

/-- The opcode map, read from the fields. -/
theorem decodeFields_eq_ok_iff (op : BitVec 3) (tsel : Bool) (i : Instr) :
    decodeFields op.toNat tsel = .ok i ↔ commandWord op (BitVec.ofBool tsel) = encode i := by
  revert op tsel
  cases i <;> decide

theorem decode_eq_ok_iff (w : Word) (i : Instr) : decode w = .ok i ↔ w = encode i := by
  unfold decode
  split
  · next hz =>
    have hw : w = commandWord (opField w) (BitVec.ofBool (tselField w)) := by
      conv_lhs => rw [word_eq_fields w, hz]
      rfl
    rw [decodeFields_eq_ok_iff, ← hw]
  · next hz =>
    have hne : w ≠ encode i := by
      rintro rfl
      cases i <;> exact hz rfl
    simp [hne]

theorem isOk_decode_eq_false_iff (w : Word) : (decode w).isOk = false ↔ ∀ i, w ≠ encode i := by
  simp only [ne_eq, ← decode_eq_ok_iff]
  cases decode w with
  | ok i => exact iff_of_false nofun fun h => h i rfl
  | error e => exact iff_of_true rfl fun _ => nofun

/-- R94's list over the two fields of the opcode map, OP widened to a word. -/
theorem isOk_decodeFields_eq_false_iff (op : BitVec 3) (tsel : Bool) :
    (decodeFields op.toNat tsel).isOk = false ↔
      (op.setWidth 32 = (0 : Word) ∨ op.setWidth 32 = (6 : Word) ∨ op.setWidth 32 = (7 : Word)) ∨
        tsel = true ∧
          (op.setWidth 32 = (3 : Word) ∨ op.setWidth 32 = (4 : Word) ∨ op.setWidth 32 = (5 : Word)) := by
  revert op tsel
  decide

/-- R94: the decoder rejects exactly the words of the list. -/
theorem illegalWord_iff (w : Word) :
    (∀ i, w ≠ encode i) ↔
      ((w &&& 7 = 0 ∨ w &&& 7 = 6 ∨ w &&& 7 = 7) ∨ w >>> 4 ≠ 0 ∨
        (w &&& 8 ≠ 0 ∧ (w &&& 7 = 3 ∨ w &&& 7 = 4 ∨ w &&& 7 = 5))) := by
  rw [← isOk_decode_eq_false_iff, and_seven_eq_opField, and_eight_ne_zero_iff, shiftRight_four_ne_zero_iff]
  unfold decode
  split
  · next hz => rw [isOk_decodeFields_eq_false_iff, hz, ne_self_iff_false, false_or]
  · next hz => exact iff_of_true rfl (.inr (.inl hz))

/-! ### Running a command -/

/-- A BUSY block whose first pending action waits runs its command (R24). -/
theorem step_runsCommand {s : State} (hs : s.seq = .busy) (hnext : s.commandNext) : step s = s.runCommand := by
  unfold step
  rcases hnext with hp | ⟨e, rest, hp, he⟩ <;> rw [hp]
  · simp [State.blockAlone, hs]
  · simp [State.commandFirst, hs, he]

/-- A word that names no command raises IllegalError (R94). -/
theorem State.runCommand_illegal {s : State} (h : ∀ i, s.cmd ≠ encode i) :
    s.runCommand = .next (s.raiseError .illegal) := by
  unfold State.runCommand
  cases hd : decode s.cmd with
  | ok i => exact absurd ((decode_eq_ok_iff _ _).1 hd) (h i)
  | error e => rfl

theorem State.accept_accepted (w : Word) (s : State) : (s.accept w).accepted := ⟨rfl, rfl, rfl, rfl⟩

/-- Settles O6: R94's list is read off the fields of the word; the CMD write accepts the word, and running it
raises IllegalError, which keeps all but ERR and SEQ. -/
theorem illegalWordEndsIllegal : Obligations.IllegalWordEndsIllegal := by
  refine ⟨illegalWord_iff, fun s b w hs hp hw => ?_⟩
  have haccept : step s = .next (State.accept w { s with pending := [] }) := step_storeReg (r := .cmd) hs hp
  have hrun : step (State.accept w { s with pending := [] })
      = .next ((State.accept w { s with pending := [] }).raiseError .illegal) := by
    rw [step_runsCommand rfl (.inl rfl), State.runCommand_illegal hw]
  exact ⟨_, _, haccept, hrun, (State.accept_accepted w _).raiseError_ended .illegal, fun _ => rfl,
    ⟨rfl, rfl, rfl, rfl, rfl, rfl⟩, ⟨rfl, rfl⟩, rfl⟩

end Sys2Proof.Machine

/-! PROOFS. The length of an encoded text (R97). -/

namespace Sys2Proof.Machine

theorem padding_length {T : Table} (h : padOf T ≠ 0) (n : Nat) : (padding T n).length = n := by
  rw [padding, if_pos h, List.length_replicate]

/-- The length of a text with padding: whole groups of four symbols (R116, R117). -/
theorem enc_length_padded {T : Table} (h : padOf T ≠ 0) (b : List Byte) :
    (enc T b).length = encLenPadded b.length := by
  unfold encLenPadded
  induction b using enc.induct with
  | case1 => rfl
  | case2 b0 => simp [enc, padding_length h]
  | case3 b0 b1 => simp [enc, padding_length h]
  | case4 b0 b1 b2 rest ih =>
    simp only [enc, List.length_append, List.length_cons, List.length_nil, ih]
    omega

/-- Settles O15: with a pad symbol a text is whole groups; without, its partial group is one symbol longer than
its bytes. -/
theorem encodedLength : Obligations.EncodedLength := by
  intro T b
  by_cases hpad : padOf T = 0
  · rw [enc_length_unpadded hpad, if_neg (not_not_intro hpad)]
    split <;> omega
  · rw [enc_length_padded hpad, if_pos hpad, encLenPadded]

end Sys2Proof.Machine

/-! PROOFS. ENCODE: the symbols of each group in byte terms, the operand and capacity checks, and the write-back. -/

namespace Sys2Proof.Machine

/-! ### The four indices of a group, in byte terms (R115) -/

/-- A mask of `k` low bits keeps those bits of a byte. -/
theorem getLsbD_and_lowMask (b : Byte) (k i : Nat) :
    (b &&& BitVec.ofNat 8 (2 ^ k - 1)).getLsbD i = (decide (i < k) && b.getLsbD i) := by
  rw [BitVec.getLsbD_and, BitVec.getLsbD_ofNat, Nat.testBit_two_pow_sub_one]
  by_cases hi : i < 8
  · simp [hi, Bool.and_comm]
  · simp [BitVec.getLsbD_of_ge b i (by omega)]

theorem toNat_idx0_packBytes (b0 b1 b2 : Byte) : (idx0 (packBytes b0 b1 b2)).toNat = (b0 >>> 2).toNat := by
  apply Nat.eq_of_testBit_eq
  intro i
  simp only [BitVec.testBit_toNat, idx0, packBytes, BitVec.getLsbD_extractLsb', BitVec.getLsbD_append,
    BitVec.getLsbD_ushiftRight]
  rw [if_neg (by omega), if_neg (by omega), show 18 + i - 8 - 8 = 2 + i by omega]
  by_cases hi : i < 6
  · simp [hi]
  · simp [hi, BitVec.getLsbD_of_ge b0 (2 + i) (by omega)]

theorem toNat_idx1_packBytes (b0 b1 b2 : Byte) :
    (idx1 (packBytes b0 b1 b2)).toNat = (((b0 &&& 0x03) <<< 4) ||| (b1 >>> 4)).toNat := by
  have hmask (j : Nat) : (b0 &&& 0x03).getLsbD j = (decide (j < 2) && b0.getLsbD j) :=
    getLsbD_and_lowMask b0 2 j
  apply Nat.eq_of_testBit_eq
  intro i
  simp only [BitVec.testBit_toNat, idx1, packBytes, BitVec.getLsbD_extractLsb', BitVec.getLsbD_append,
    BitVec.getLsbD_or, BitVec.getLsbD_shiftLeft, BitVec.getLsbD_ushiftRight, hmask]
  rw [if_neg (by omega)]
  by_cases h4 : i < 4
  · rw [if_pos (by omega), show 12 + i - 8 = 4 + i by omega]
    simp [h4, show i < 6 by omega]
  · rw [if_neg (by omega), show 12 + i - 8 - 8 = i - 4 by omega, BitVec.getLsbD_of_ge b1 (4 + i) (by omega)]
    by_cases h6 : i < 6
    · simp [h4, h6, show i < 8 by omega, show i - 4 < 2 by omega]
    · simp [h6, show ¬ i - 4 < 2 by omega]

theorem toNat_idx2_packBytes (b0 b1 b2 : Byte) :
    (idx2 (packBytes b0 b1 b2)).toNat = (((b1 &&& 0x0F) <<< 2) ||| (b2 >>> 6)).toNat := by
  have hmask (j : Nat) : (b1 &&& 0x0F).getLsbD j = (decide (j < 4) && b1.getLsbD j) :=
    getLsbD_and_lowMask b1 4 j
  apply Nat.eq_of_testBit_eq
  intro i
  simp only [BitVec.testBit_toNat, idx2, packBytes, BitVec.getLsbD_extractLsb', BitVec.getLsbD_append,
    BitVec.getLsbD_or, BitVec.getLsbD_shiftLeft, BitVec.getLsbD_ushiftRight, hmask]
  by_cases h2 : i < 2
  · rw [if_pos (by omega)]
    simp [h2, show i < 6 by omega]
  · rw [if_neg (by omega), show 6 + i - 8 = i - 2 by omega, BitVec.getLsbD_of_ge b2 (6 + i) (by omega)]
    by_cases h6 : i < 6
    · rw [if_pos (by omega)]
      simp [h2, h6, show i < 8 by omega, show i - 2 < 4 by omega]
    · simp [h6, show ¬ i - 2 < 4 by omega]

theorem toNat_idx3_packBytes (b0 b1 b2 : Byte) : (idx3 (packBytes b0 b1 b2)).toNat = (b2 &&& 0x3F).toNat := by
  have hmask (j : Nat) : (b2 &&& 0x3F).getLsbD j = (decide (j < 6) && b2.getLsbD j) :=
    getLsbD_and_lowMask b2 6 j
  apply Nat.eq_of_testBit_eq
  intro i
  simp only [BitVec.testBit_toNat, idx3, packBytes, BitVec.getLsbD_extractLsb', BitVec.getLsbD_append,
    hmask, Nat.zero_add]
  by_cases hi : i < 6
  · rw [if_pos (by omega)]
  · simp [hi]

/-- Settles O13: the four indices of the group, each in byte terms. -/
theorem encodeFullGroup : Obligations.EncodeFullGroup := by
  intro T b0 b1 b2 rest
  rw [enc, toNat_idx0_packBytes, toNat_idx1_packBytes, toNat_idx2_packBytes, toNat_idx3_packBytes]

/-! ### The partial groups (R116, R117, R120) -/

/-- A missing byte adds no bit (R120). -/
theorem or_zero_ushiftRight (x : Byte) (k : Nat) : x ||| ((0 : Byte) >>> k) = x := by simp

/-- One byte: the second index has the byte's two low bits, then zeros. -/
theorem enc_one (T : Table) (b0 : Byte) :
    enc T [b0] = [symAt T (b0 >>> 2).toNat, symAt T ((b0 &&& 0x03) <<< 4).toNat] ++ padding T 2 := by
  rw [enc, toNat_idx0_packBytes, toNat_idx1_packBytes, or_zero_ushiftRight]

/-- Two bytes: the third index has the second byte's four low bits, then zeros. -/
theorem enc_two (T : Table) (b0 b1 : Byte) :
    enc T [b0, b1] = [symAt T (b0 >>> 2).toNat, symAt T (((b0 &&& 0x03) <<< 4) ||| (b1 >>> 4)).toNat,
      symAt T ((b1 &&& 0x0F) <<< 2).toNat] ++ padding T 1 := by
  rw [enc, toNat_idx0_packBytes, toNat_idx1_packBytes, toNat_idx2_packBytes, or_zero_ushiftRight]

theorem padding_of_pad {T : Table} (h : padOf T ≠ 0) (n : Nat) : padding T n = List.replicate n (padOf T) :=
  if_pos h

theorem padding_of_noPad {T : Table} (h : padOf T = 0) (n : Nat) : padding T n = [] :=
  if_neg (not_not_intro h)

/-- Settles O14: the partial groups, followed by what the pad slot gives. -/
theorem encodePartialGroups : Obligations.EncodePartialGroups := by
  intro T b0 b1
  refine ⟨rfl, fun h => ?_, fun h => ?_, fun h => ?_, fun h => ?_⟩
  · rw [enc_one, padding_of_pad h]; rfl
  · rw [enc_one, padding_of_noPad h]; rfl
  · rw [enc_two, padding_of_pad h]; rfl
  · rw [enc_two, padding_of_noPad h]; rfl

/-! ### The checks (R111, R112) -/

/-- Operands out of range end a codec command before its table is looked at (R111, R141). -/
theorem execCodec_illegal {i : Instr} {s : State}
    (hi : i = .encodeD ∨ i = .encodeA ∨ i = .decodeD ∨ i = .decodeA) (ho : s.codecOperandsOk = false) :
    exec i s = .next (s.failWith .obuf .illegal) := by
  have ho' : ¬ s.codecOperandsOk = true := Bool.eq_false_iff.1 ho
  rcases hi with rfl | rfl | rfl | rfl <;> exact if_neg ho'

/-- Settles O22: the operand check fails. -/
theorem codecOperandsOutOfRange : Obligations.CodecOperandsOutOfRange := by
  intro i s hs hi hout
  have ho : s.codecOperandsOk = false := by
    rw [Bool.eq_false_iff, ne_eq, State.codecOperandsOk_iff]
    omega
  exact ⟨_, execCodec_illegal hi ho, hs.failWith_ended .obuf .illegal⟩

/-- Past its operand check ENCODE is `encodeWith` of its table. -/
theorem exec_encode {i : Instr} {s : State} {T : Table} (henc : encodesWith i s T)
    (hilen : s.ilen.toNat ≤ Config.ibufSize) (hocap : s.ocap.toNat ≤ Config.obufSize) :
    exec i s = encodeWith T s := by
  have ho : s.codecOperandsOk = true := (State.codecOperandsOk_iff s).2 ⟨hilen, hocap⟩
  rcases henc with ⟨rfl, rfl⟩ | ⟨rfl, husable, rfl⟩
  · rw [exec_encodeD, execEncodeD, if_pos ho]
  · rw [exec_encodeA, execEncodeA, if_pos ho, if_pos husable]

theorem encodeWith_of_lt {T : Table} {s : State} (h : s.ocap.toNat < encLenPadded s.ilen.toNat) :
    encodeWith T s = .next (s.failWith .obuf .capacity) := if_pos h

theorem encodeWith_of_le {T : Table} {s : State} (h : encLenPadded s.ilen.toNat ≤ s.ocap.toNat) :
    encodeWith T s = .next ((s.storeResult .obuf s.ocap.toNat (enc T s.inputBytes)).complete
      (enc T s.inputBytes).length) := if_neg (Nat.not_lt.2 h)

/-- Settles O21: `encodeWith` raises CapacityError on one side of the bound and completes on the other. -/
theorem encodeCapacityError : Obligations.EncodeCapacityError := by
  intro i s T hs henc hilen hocap
  rw [exec_encode henc hilen hocap]
  by_cases hcap : s.ocap.toNat < encLenPadded s.ilen.toNat
  · have hended := hs.failWith_ended .obuf .capacity
    exact ⟨_, encodeWith_of_lt hcap, ⟨fun _ => hcap, fun _ => hended.err⟩, fun _ => hended⟩
  · exact ⟨_, encodeWith_of_le (Nat.not_lt.1 hcap), ⟨nofun, fun h => absurd h hcap⟩, fun h => absurd h hcap⟩

/-! ### The write-back (R118, R119) -/

/-- A stored result reads back byte by byte, zeros after it. -/
theorem State.byteAt_storeResult_inside {b : OutBuf} {cap j : Nat} {bytes : List Byte} {s : State}
    (hle : bytes.length ≤ cap) (hj : j < cap) :
    (s.storeResult b cap bytes).byteAt (b.buf.base + j) = bytes.getD j 0 := by
  rw [State.byteAt_storeResult s _ hle, if_pos (by omega), Nat.add_sub_cancel_left]

/-- Storing a result changes no byte outside the area it is stored to. -/
theorem State.storeResult_sameBytesOutside {b : OutBuf} {cap : Nat} {bytes : List Byte} {s : State}
    (hle : bytes.length ≤ cap) : s.sameBytesOutside b.buf.base cap (s.storeResult b cap bytes) :=
  fun off hoff => by rw [State.byteAt_storeResult s off hle, if_neg hoff]

/-- What a codec command that stores a result of at most OCAP bytes leaves: the count, the bytes, the frame. -/
theorem State.accepted.storeResult_complete {s t : State} (hs : s.accepted) {bytes : List Byte}
    (ht : t = (s.storeResult .obuf s.ocap.toNat bytes).complete bytes.length)
    (hle : bytes.length ≤ s.ocap.toNat) (hocap : s.ocap.toNat ≤ Config.obufSize) :
    t.ended .ok bytes.length false ∧ (∀ j < s.ocap.toNat, t.byteAt (0x2000 + j) = bytes.getD j 0) ∧
      s.sameBytesOutside 0x2000 s.ocap.toNat t := by
  subst ht
  exact ⟨State.complete_ended hs.noMatch (Nat.le_trans hle hocap),
    fun _ hj => State.byteAt_storeResult_inside (b := .obuf) hle hj,
    State.storeResult_sameBytesOutside (b := .obuf) hle⟩

/-- A text fits where the padded length does, whatever the table (R112). -/
theorem enc_inputBytes_length_le {T : Table} {s : State} (h : encLenPadded s.ilen.toNat ≤ s.ocap.toNat) :
    (enc T s.inputBytes).length ≤ s.ocap.toNat :=
  calc (enc T s.inputBytes).length
    _ ≤ encLenPadded s.inputBytes.length := enc_length_le T s.inputBytes
    _ = encLenPadded s.ilen.toNat := by rw [State.inputBytes_length]
    _ ≤ s.ocap.toNat := h

/-- Settles O20: `encodeWith` completes, and its text fits OCAP because the padded length does. -/
theorem encodeCompletes : Obligations.EncodeCompletes := by
  intro i s T hs henc hilen hocap hcap
  exact ⟨_, (exec_encode henc hilen hocap).trans (encodeWith_of_le hcap),
    hs.storeResult_complete rfl (enc_inputBytes_length_le hcap) hocap⟩

end Sys2Proof.Machine

/-! PROOFS. Dec: the bytes of each group, when a text decodes, how long the bytes are, and that Dec undoes Enc. -/

namespace Sys2Proof.Machine

/-! ### The bytes of a group in symbol terms (R149) -/

theorem byte0_packIndices (c0 c1 c2 c3 : SymIndex) :
    byte0 (packIndices c0 c1 c2 c3) = (c0.setWidth 8 <<< 2) ||| (c1.setWidth 8 >>> 4) := by
  apply BitVec.eq_of_getLsbD_eq
  intro i hi
  simp only [byte0, packIndices, BitVec.getLsbD_extractLsb', BitVec.getLsbD_append, BitVec.getLsbD_or,
    BitVec.getLsbD_shiftLeft, BitVec.getLsbD_ushiftRight, BitVec.getLsbD_setWidth]
  rw [if_neg (by omega), if_neg (by omega)]
  by_cases h2 : i < 2
  · rw [if_pos (by omega), show 16 + i - 6 - 6 = 4 + i by omega]
    simp [hi, h2, show 4 + i < 8 by omega]
  · rw [if_neg (by omega), show 16 + i - 6 - 6 - 6 = i - 2 by omega, BitVec.getLsbD_of_ge c1 (4 + i) (by omega)]
    simp [hi, h2, show i - 2 < 8 by omega]

theorem byte1_packIndices (c0 c1 c2 c3 : SymIndex) :
    byte1 (packIndices c0 c1 c2 c3) = ((c1.setWidth 8 &&& 0x0F) <<< 4) ||| (c2.setWidth 8 >>> 2) := by
  have hmask (j : Nat) : (c1.setWidth 8 &&& 0x0F).getLsbD j = (decide (j < 4) && (c1.setWidth 8).getLsbD j) :=
    getLsbD_and_lowMask _ 4 j
  apply BitVec.eq_of_getLsbD_eq
  intro i hi
  simp only [byte1, packIndices, BitVec.getLsbD_extractLsb', BitVec.getLsbD_append, BitVec.getLsbD_or,
    BitVec.getLsbD_shiftLeft, BitVec.getLsbD_ushiftRight, hmask, BitVec.getLsbD_setWidth]
  rw [if_neg (by omega)]
  by_cases h4 : i < 4
  · rw [if_pos (by omega), show 8 + i - 6 = 2 + i by omega]
    simp [hi, h4, show 2 + i < 8 by omega]
  · rw [if_neg (by omega), if_pos (by omega), show 8 + i - 6 - 6 = i - 4 by omega,
      BitVec.getLsbD_of_ge c2 (2 + i) (by omega)]
    simp [hi, h4, show i - 4 < 4 by omega, show i - 4 < 8 by omega]

theorem byte2_packIndices (c0 c1 c2 c3 : SymIndex) :
    byte2 (packIndices c0 c1 c2 c3) = ((c2.setWidth 8 &&& 0x03) <<< 6) ||| c3.setWidth 8 := by
  have hmask (j : Nat) : (c2.setWidth 8 &&& 0x03).getLsbD j = (decide (j < 2) && (c2.setWidth 8).getLsbD j) :=
    getLsbD_and_lowMask _ 2 j
  apply BitVec.eq_of_getLsbD_eq
  intro i hi
  simp only [byte2, packIndices, BitVec.getLsbD_extractLsb', BitVec.getLsbD_append, BitVec.getLsbD_or,
    BitVec.getLsbD_shiftLeft, hmask, BitVec.getLsbD_setWidth, Nat.zero_add]
  by_cases h6 : i < 6
  · simp [hi, h6]
  · rw [if_neg h6, if_pos (by omega), BitVec.getLsbD_of_ge c3 i (by omega)]
    simp [hi, h6, show i - 6 < 2 by omega, show i - 6 < 8 by omega]

/-- Settles O16: the bytes of a group, the missing indices of a partial group taken as zero. -/
theorem unpackGroups : Obligations.UnpackGroups := by
  intro c0 c1 c2 c3 rest
  refine ⟨?_, ?_, ?_, rfl⟩
  · rw [unpack, byte0_packIndices, byte1_packIndices, byte2_packIndices]
  · rw [unpack, byte0_packIndices, byte1_packIndices]
  · rw [unpack, byte0_packIndices]

/-! ### The scan (R144) -/

/-- A text without the pad symbol, then nothing or a pad symbol: the scan stops between the two. -/
theorem scan_append {T : Table} {pre tail : List Byte} (hpre : ∀ c ∈ pre, c ≠ padOf T)
    (htail : ∀ c ∈ tail.head?, c = padOf T) :
    scanned T (pre ++ tail) = pre ∧ afterScan T (pre ++ tail) = tail := by
  have hp : ∀ c ∈ pre, (c != padOf T) = true := fun c hc => bne_iff_ne.2 (hpre c hc)
  rw [scanned, afterScan, List.takeWhile_append_of_pos hp, List.dropWhile_append_of_pos hp]
  cases tail with
  | nil => exact ⟨List.append_nil _, rfl⟩
  | cons c rest =>
    obtain rfl : c = padOf T := htail c rfl
    simp

theorem scan_of_scannedLength {T : Table} {t : List Byte} {n : Nat} (h : scannedLength T t n) :
    scanned T t = t.take n ∧ afterScan T t = t.drop n := by
  obtain ⟨hle, hpre, hend⟩ := h
  have hscan := scan_append (T := T) (pre := t.take n) (tail := t.drop n) ?_ ?_
  · rwa [List.take_append_drop] at hscan
  · intro c hc
    obtain ⟨j, hj, rfl⟩ := List.mem_take_iff_getElem.1 hc
    have := hpre j (by omega)
    rwa [textAt, List.getD_eq_getElem t 0 (by omega)] at this
  · intro c hc
    rw [List.head?_drop] at hc
    obtain ⟨hn, rfl⟩ := List.getElem?_eq_some_iff.1 hc
    rcases hend with rfl | hpad
    · exact absurd hn (Nat.lt_irrefl _)
    · rwa [textAt, List.getD_eq_getElem t 0 hn] at hpad

theorem scanned_length {T : Table} {t : List Byte} {n : Nat} (h : scannedLength T t n) :
    (scanned T t).length = n := by
  rw [(scan_of_scannedLength h).1, List.length_take, Nat.min_eq_left h.1]

/-! ### The indices of the scanned symbols (R144) -/

theorem lookupAll_cons (T : Table) (c : Byte) (l : List Byte) :
    lookupAll T (c :: l) =
      (inv T c).bind fun i => (lookupAll T l).map (BitVec.ofNat 6 i :: ·) := by
  rw [lookupAll]
  cases inv T c <;> cases lookupAll T l <;> rfl

theorem lookupAll_length {T : Table} {l : List Byte} {is : List SymIndex} (h : lookupAll T l = some is) :
    is.length = l.length := by
  induction l generalizing is with
  | nil => cases h; rfl
  | cons c rest ih =>
    simp only [lookupAll_cons, Option.bind_eq_some_iff, Option.map_eq_some_iff] at h
    obtain ⟨i, -, js, hjs, rfl⟩ := h
    rw [List.length_cons, List.length_cons, ih hjs]

theorem lookupAll_eq_none_iff (T : Table) (l : List Byte) : lookupAll T l = none ↔ ∃ c ∈ l, inv T c = none := by
  induction l with
  | nil => simp [lookupAll]
  | cons c rest ih =>
    rw [List.exists_mem_cons_iff, ← ih, lookupAll_cons]
    cases inv T c <;> simp

/-! ### The padding and remainder checks (R145, R146) -/

/-- With a pad symbol the pad fills the last group of four; no text has a lone last symbol. -/
theorem tailOk_iff (T : Table) (s : Nat) (tail : List Byte) :
    tailOk T s tail = true ↔
      s % 4 ≠ 1 ∧ (padOf T ≠ 0 → tail = List.replicate ((4 - s % 4) % 4) (padOf T)) := by
  rw [tailOk]
  split
  · next hpad =>
    have hr : s % 4 = 0 ∨ s % 4 = 1 ∨ s % 4 = 2 ∨ s % 4 = 3 := by omega
    rw [imp_iff_right hpad]
    rcases hr with h | h | h | h <;> simp [h, List.replicate]
  · next hpad => simp only [hpad, false_imp_iff, and_true, bne_iff_ne]

/-! ### Dec (R156) -/

theorem dec_eq_some_iff (T : Table) (t d : List Byte) :
    dec T t = some d ↔
      ∃ is, lookupAll T (scanned T t) = some is ∧ tailOk T is.length (afterScan T t) = true ∧ unpack is = d := by
  rw [dec]
  cases lookupAll T (scanned T t) <;> simp

theorem dec_eq_none_iff (T : Table) (t : List Byte) :
    dec T t = none ↔ (∃ c ∈ scanned T t, inv T c = none) ∨
      ¬ tailOk T (scanned T t).length (afterScan T t) = true := by
  rw [← lookupAll_eq_none_iff, dec]
  cases h : lookupAll T (scanned T t) with
  | none => simp
  | some is => simp [lookupAll_length h]

/-- A full group more is three bytes more. -/
theorem decLen_add_four (s : Nat) : decLen (s + 4) = decLen s + 3 := by
  rw [decLen, decLen, Nat.add_mod_right]
  omega

theorem unpack_length (is : List SymIndex) : (unpack is).length = decLen is.length := by
  induction is using unpack.induct with
  | case1 c0 c1 c2 c3 rest ih =>
    rw [unpack, List.length_append, ih, Nat.add_comm]
    exact (decLen_add_four rest.length).symm
  | case2 c0 c1 c2 => simp [unpack, decLen]
  | case3 c0 c1 => simp [unpack, decLen]
  | case4 c => simp [unpack, decLen]
  | case5 => rfl

/-- Settles O18: the scan finds `n` symbols, and `unpack` gives the bytes they carry. -/
theorem decodedLength : Obligations.DecodedLength := by
  intro T t d n hn hd
  obtain ⟨is, his, -, rfl⟩ := (dec_eq_some_iff T t d).1 hd
  rw [unpack_length, lookupAll_length his, scanned_length hn, decLen]

theorem exists_take_inv_none_iff {T : Table} (hT : tableWF T = true) {t : List Byte} {n : Nat}
    (hn : n ≤ t.length) :
    (∃ c ∈ t.take n, inv T c = none) ↔ ∃ j < n, ∀ k ≤ 64, symAt T k ≠ textAt t j := by
  simp only [inv_eq_none_iff hT]
  constructor
  · rintro ⟨c, hc, hout⟩
    obtain ⟨j, hj, rfl⟩ := List.mem_take_iff_getElem.1 hc
    exact ⟨j, by omega, by rwa [textAt, List.getD_eq_getElem t 0 (by omega)]⟩
  · rintro ⟨j, hj, hout⟩
    rw [textAt, List.getD_eq_getElem t 0 (by omega)] at hout
    exact ⟨_, List.mem_take_iff_getElem.2 ⟨j, by omega, rfl⟩, hout⟩

/-- The text ends with `k` copies of `p` from index `n` on, by index. -/
theorem drop_eq_replicate_iff {t : List Byte} {n : Nat} (hn : n ≤ t.length) (k : Nat) (p : Byte) :
    t.drop n = List.replicate k p ↔ t.length = n + k ∧ ∀ i < k, textAt t (n + i) = p := by
  rw [List.eq_replicate_iff, List.length_drop, Nat.sub_eq_iff_eq_add' hn]
  refine and_congr_right fun hl => ?_
  rw [List.forall_mem_iff_forall_getElem]
  constructor
  · intro h i hi
    have := h i (by simp; omega)
    rwa [List.getElem_drop, ← List.getD_eq_getElem t 0] at this
  · intro h i hi
    rw [List.length_drop] at hi
    rw [List.getElem_drop, ← List.getD_eq_getElem t 0]
    exact h i (by omega)

/-- Settles O17: the scanned symbols are the first `n`, and the rest of the text is checked against the pad symbols
that the remainder asks for. -/
theorem decodeFailsExactly : Obligations.DecodeFailsExactly := by
  intro T t n hT _ hn
  obtain ⟨hscan, htail⟩ := scan_of_scannedLength hn
  rw [dec_eq_none_iff, scanned_length hn, hscan, htail, exists_take_inv_none_iff hT hn.1, tailOk_iff,
    drop_eq_replicate_iff hn.1]
  refine or_congr_right ?_
  have hr : n % 4 = 0 ∨ n % 4 = 1 ∨ n % 4 = 2 ∨ n % 4 = 3 := by omega
  rcases hr with h | h | h | h
  · simp [h]
  · simp [h]
  · simp [h, Nat.le_one_iff_eq_zero_or_eq_one]
  · simp [h]

/-! ### Dec undoes Enc (R158) -/

/-- The indices of the data symbols that encode a byte sequence. -/
def encIndices : List Byte → List SymIndex
  | [] => []
  | [b0] => [idx0 (packBytes b0 0 0), idx1 (packBytes b0 0 0)]
  | [b0, b1] => [idx0 (packBytes b0 b1 0), idx1 (packBytes b0 b1 0), idx2 (packBytes b0 b1 0)]
  | b0 :: b1 :: b2 :: rest =>
    idx0 (packBytes b0 b1 b2) :: idx1 (packBytes b0 b1 b2) :: idx2 (packBytes b0 b1 b2) ::
      idx3 (packBytes b0 b1 b2) :: encIndices rest

/-- A text is its data symbols, then the padding of its last group. -/
theorem enc_eq_map_append_padding (T : Table) (b : List Byte) :
    enc T b = (encIndices b).map (fun i => symAt T i.toNat) ++ padding T ((3 - b.length % 3) % 3) := by
  induction b using encIndices.induct with
  | case1 => simp [enc, encIndices, padding]
  | case2 b0 => rfl
  | case3 b0 b1 => rfl
  | case4 b0 b1 b2 rest ih =>
    have hmod : (b0 :: b1 :: b2 :: rest).length % 3 = rest.length % 3 := Nat.add_mod_right _ 3
    rw [enc, ih, hmod]
    rfl

theorem encIndices_length (b : List Byte) : (encIndices b).length = b.length + (b.length + 2) / 3 := by
  induction b using encIndices.induct with
  | case1 => rfl
  | case2 b0 => simp [encIndices]
  | case3 b0 b1 => simp [encIndices]
  | case4 b0 b1 b2 rest ih =>
    simp only [encIndices, List.length_cons, ih]
    omega

theorem unpack_encIndices (b : List Byte) : unpack (encIndices b) = b := by
  induction b using encIndices.induct with
  | case1 => rfl
  | case2 b0 => exact unpack_one b0
  | case3 b0 b1 => exact unpack_two b0 b1
  | case4 b0 b1 b2 rest ih => rw [encIndices, unpack_group, ih]

/-- A data symbol of a well-formed table is not its pad symbol. -/
theorem symAt_ne_padOf {T : Table} (hT : tableWF T = true) (i : SymIndex) : symAt T i.toNat ≠ padOf T := by
  intro h
  have hi := i.isLt
  have := symAt_injective hT (by omega) (Nat.le_refl 64) h
  omega

theorem inv_symAt {T : Table} (hT : tableWF T = true) (i : SymIndex) : inv T (symAt T i.toNat) = some i.toNat :=
  (inv_eq_some_iff hT _ _).2 ⟨by omega, rfl⟩

theorem lookupAll_map_symAt {T : Table} (hT : tableWF T = true) (is : List SymIndex) :
    lookupAll T (is.map fun i => symAt T i.toNat) = some is := by
  induction is with
  | nil => rfl
  | cons i rest ih => simp [lookupAll_cons, inv_symAt hT, ih]

theorem head?_padding {T : Table} {n : Nat} {c : Byte} (h : c ∈ (padding T n).head?) : c = padOf T := by
  rw [padding] at h
  split at h
  · exact List.eq_of_mem_replicate (List.mem_of_mem_head? h)
  · cases h

theorem scan_enc {T : Table} (hT : tableWF T = true) (b : List Byte) :
    scanned T (enc T b) = (encIndices b).map (fun i => symAt T i.toNat) ∧
      afterScan T (enc T b) = padding T ((3 - b.length % 3) % 3) := by
  rw [enc_eq_map_append_padding]
  refine scan_append (fun c hc => ?_) fun c hc => head?_padding hc
  obtain ⟨i, -, rfl⟩ := List.mem_map.1 hc
  exact symAt_ne_padOf hT i

/-- The padding fills the group that the data symbols leave open, and no lone symbol is left. -/
theorem tailOk_enc (T : Table) (b : List Byte) :
    tailOk T (encIndices b).length (padding T ((3 - b.length % 3) % 3)) = true := by
  obtain ⟨hlone, hcount⟩ : (encIndices b).length % 4 ≠ 1 ∧
      (3 - b.length % 3) % 3 = (4 - (encIndices b).length % 4) % 4 := by
    rw [encIndices_length]
    have hr : b.length % 3 = 0 ∨ b.length % 3 = 1 ∨ b.length % 3 = 2 := by omega
    rcases hr with h | h | h <;> omega
  exact (tailOk_iff _ _ _).2 ⟨hlone, fun hpad => by rw [padding_of_pad hpad, hcount]⟩

theorem dec_enc {T : Table} (hT : tableWF T = true) (b : List Byte) : dec T (enc T b) = some b := by
  obtain ⟨hscan, htail⟩ := scan_enc hT b
  refine (dec_eq_some_iff _ _ _).2 ⟨encIndices b, ?_, ?_, unpack_encIndices b⟩
  · rw [hscan, lookupAll_map_symAt hT]
  · rw [htail, tailOk_enc]

theorem tableWF_dtbl : tableWF dtbl = true := by decide +kernel

/-- `AB==` is not the text of the byte 0x00 that it decodes to: bits left over are set (R151). -/
theorem dec_enc_converse_fails :
    dec dtbl [0x41, 0x42, 0x3D, 0x3D] = some [0] ∧ enc dtbl [0] ≠ [0x41, 0x42, 0x3D, 0x3D] := by
  decide +kernel

/-- Settles O19: the scan splits a text into its data symbols and its padding, and each step of Dec undoes one of
Enc; the converse fails where Dec drops bits. -/
theorem decodeOfEncode : Obligations.DecodeOfEncode :=
  ⟨fun _ b hT => dec_enc hT b, dtbl, _, _, tableWF_dtbl, dec_enc_converse_fails⟩

end Sys2Proof.Machine

/-! PROOFS. DECODE: the operand, format and capacity checks, the write-back, and DECODE after ENCODE. -/

namespace Sys2Proof.Machine

/-! ### The checks of DECODE (R141, R148) -/

/-- Past its operand check DECODE is `decodeWith` of its table. -/
theorem exec_decode {i : Instr} {s : State} {T : Table} (hdec : decodesWith i s T)
    (hilen : s.ilen.toNat ≤ Config.ibufSize) (hocap : s.ocap.toNat ≤ Config.obufSize) :
    exec i s = decodeWith T s := by
  have ho : s.codecOperandsOk = true := (State.codecOperandsOk_iff s).2 ⟨hilen, hocap⟩
  rcases hdec with ⟨rfl, rfl⟩ | ⟨rfl, husable, rfl⟩
  · rw [exec_decodeD, execDecodeD, if_pos ho]
  · rw [exec_decodeA, execDecodeA, if_pos ho, if_pos husable]

theorem decodeWith_of_none {T : Table} {s : State} (h : dec T s.inputText = none) :
    decodeWith T s = .next (s.failWith .obuf .format) := by
  rw [decodeWith, h]

section Decoded
variable {T : Table} {s : State} {d : List Byte} (h : dec T s.inputText = some d)
include h

theorem decodeWith_of_lt (hcap : s.ocap.toNat < d.length) :
    decodeWith T s = .next (s.failWith .obuf .capacity) := by
  rw [decodeWith, h]
  exact if_pos hcap

theorem decodeWith_of_le (hcap : d.length ≤ s.ocap.toNat) :
    decodeWith T s = .next ((s.storeResult .obuf s.ocap.toNat d).complete d.length) := by
  rw [decodeWith, h]
  exact if_neg (Nat.not_lt.2 hcap)

end Decoded

/-- Settles O25: Dec comes before the capacity check. -/
theorem decodeFormatError : Obligations.DecodeFormatError := by
  intro i s T hs hdec hilen hocap hd
  exact ⟨_, (exec_decode hdec hilen hocap).trans (decodeWith_of_none hd), hs.failWith_ended .obuf .format⟩

/-- Settles O26: `decodeWith` raises CapacityError on one side of the bound and completes on the other. -/
theorem decodeCapacityError : Obligations.DecodeCapacityError := by
  intro i s T d hs hdec hilen hocap hd
  rw [exec_decode hdec hilen hocap]
  by_cases hcap : s.ocap.toNat < d.length
  · have hended := hs.failWith_ended .obuf .capacity
    exact ⟨_, decodeWith_of_lt hd hcap, ⟨fun _ => hcap, fun _ => hended.err⟩, fun _ => hended⟩
  · exact ⟨_, decodeWith_of_le hd (Nat.not_lt.1 hcap), ⟨nofun, fun h => absurd h hcap⟩,
      fun h => absurd h hcap⟩

/-! ### The write-back (R152, R153) -/

/-- Settles O24: `decodeWith` completes with the decoded bytes. -/
theorem decodeCompletes : Obligations.DecodeCompletes := by
  intro i s T d hs hdec hilen hocap hd hcap
  exact ⟨_, (exec_decode hdec hilen hocap).trans (decodeWith_of_le hd hcap),
    hs.storeResult_complete rfl hcap hocap⟩

/-! ### ENCODE, then DECODE (R158) -/

theorem decodesWith_tableWF {i : Instr} {s : State} {T : Table} (h : decodesWith i s T) : tableWF T = true := by
  rcases h with ⟨-, rfl⟩ | ⟨-, husable, rfl⟩
  · exact tableWF_dtbl
  · exact (Bool.and_eq_true_iff.1 husable).2

/-- An ENCODE that ends with ERR = 0 has passed its operand and capacity checks. -/
theorem checks_of_exec_encode_ok {i : Instr} {s t : State} {T : Table} (henc : encodesWith i s T)
    (ht : exec i s = .next t) (hok : t.err = .ok) :
    s.ilen.toNat ≤ Config.ibufSize ∧ s.ocap.toNat ≤ Config.obufSize ∧
      encLenPadded s.ilen.toNat ≤ s.ocap.toNat := by
  have hi : i = .encodeD ∨ i = .encodeA ∨ i = .decodeD ∨ i = .decodeA := by
    rcases henc with ⟨rfl, -⟩ | ⟨rfl, -⟩ <;> simp
  have ho : s.codecOperandsOk = true := by
    by_contra ho
    rw [execCodec_illegal hi (Bool.eq_false_iff.2 ho)] at ht
    cases ht
    cases hok
  obtain ⟨hilen, hocap⟩ := (State.codecOperandsOk_iff s).1 ho
  refine ⟨hilen, hocap, Nat.not_lt.1 fun hcap => ?_⟩
  rw [exec_encode henc hilen hocap, encodeWith_of_lt hcap] at ht
  cases ht
  cases hok

/-- Bytes known one by one are the bytes read. -/
theorem State.readBytes_eq_of_byteAt {s : State} {off : Nat} {bytes : List Byte}
    (h : ∀ j < bytes.length, s.byteAt (off + j) = bytes.getD j 0) : s.readBytes off bytes.length = bytes := by
  apply List.ext_getElem
  · simp
  · intro j h1 h2
    rw [← List.getD_eq_getElem _ 0 h1, ← List.getD_eq_getElem _ 0 h2, State.readBytes_getD _ _ _ _ h2, h j h2]

/-- An ENCODE that ends with ERR = 0 leaves its text in OBUF, counted by OLEN. -/
theorem readBytes_of_exec_encode_ok {i : Instr} {s t : State} {T : Table} (hs : s.accepted)
    (henc : encodesWith i s T) (ht : exec i s = .next t) (hok : t.err = .ok) :
    t.readBytes 0x2000 t.olen.toNat = enc T s.inputBytes := by
  obtain ⟨hilen, hocap, hcap⟩ := checks_of_exec_encode_ok henc ht hok
  obtain ⟨t', ht', hended, hbytes, -⟩ := encodeCompletes i s T hs henc hilen hocap hcap
  obtain rfl : t' = t := Host.Outcome.next.inj (ht'.symm.trans ht)
  rw [hended.olen]
  exact State.readBytes_eq_of_byteAt fun j hj =>
    hbytes j (Nat.lt_of_lt_of_le hj (enc_inputBytes_length_le hcap))

/-- Settles O28: DECODE reads the text that ENCODE wrote, and `dec_enc` gives the input back. -/
theorem encodeThenDecode : Obligations.EncodeThenDecode := by
  intro i k s t u T hs henc ht hok hu hdec hilen hocap hroom htext
  have hd : dec T (textOf (u.readBytes 0x1000 u.ilen.toNat)) = some s.inputBytes := by
    rw [htext, readBytes_of_exec_encode_ok hs henc ht hok, dec_enc (decodesWith_tableWF hdec)]
  have hlen : s.inputBytes.length = s.ilen.toNat := s.inputBytes_length
  obtain ⟨v, hv, hended, hbytes, -⟩ := decodeCompletes k u T _ hu hdec hilen hocap hd (hlen.trans_le hroom)
  rw [hlen] at hended
  have hread : v.readBytes 0x2000 s.inputBytes.length = s.inputBytes :=
    State.readBytes_eq_of_byteAt fun j hj => hbytes j (by omega)
  rw [hlen] at hread
  exact ⟨v, hv, hended, hread⟩

end Sys2Proof.Machine

/-! PROOFS. The record parser as an equivalence, the records GENSALT and HASH write, and the hash core. -/

namespace Sys2Proof.Machine

/-! ### The cost field (R101, R183) -/

theorem digit_toNat {n : Nat} (h : n ≤ 9) : (BitVec.ofNat 8 (0x30 + n)).toNat = 0x30 + n := by
  rw [BitVec.toNat_ofNat]
  omega

theorem isDigit_iff (d : Byte) : isDigit d = true ↔ ∃ n ≤ 9, d = BitVec.ofNat 8 (0x30 + n) := by
  rw [isDigit, Bool.and_eq_true, decide_eq_true_iff, decide_eq_true_iff]
  constructor
  · rintro ⟨hlo, hhi⟩
    refine ⟨d.toNat - 0x30, by omega, ?_⟩
    rw [Nat.add_sub_cancel' hlo, BitVec.ofNat_toNat, BitVec.setWidth_eq]
  · rintro ⟨n, hn, rfl⟩
    rw [digit_toNat hn]
    omega

/-- The value of two digits, the first the tens. -/
theorem digits_value {b1 b0 : Byte} {d1 d0 : Nat} (h1 : d1 ≤ 9) (h0 : d0 ≤ 9)
    (e1 : b1 = BitVec.ofNat 8 (0x30 + d1)) (e0 : b0 = BitVec.ofNat 8 (0x30 + d0)) :
    10 * (b1.toNat - 0x30) + (b0.toNat - 0x30) = 10 * d1 + d0 := by
  rw [e1, e0, digit_toNat h1, digit_toNat h0, Nat.add_sub_cancel_left, Nat.add_sub_cancel_left]

/-- The cost is read from two digits that a `$` follows, and is in range. -/
theorem parseCost_eq_some_iff (t : List Byte) (p c : Nat) :
    parseCost t p = some c ↔
      (∃ d1 d0 : Nat, d1 ≤ 9 ∧ d0 ≤ 9 ∧ textAt t (p - 3) = BitVec.ofNat 8 (0x30 + d1) ∧
        textAt t (p - 2) = BitVec.ofNat 8 (0x30 + d0) ∧ c = 10 * d1 + d0) ∧
      textAt t (p - 1) = dollar ∧ Config.minCost ≤ c ∧ c ≤ Config.costMax := by
  simp only [parseCost, Option.ite_none_right_eq_some, Bool.and_eq_true, isDigit_iff, beq_iff_eq,
    decide_eq_true_iff, Option.some.injEq]
  constructor
  · rintro ⟨⟨⟨⟨⟨⟨d1, h1, e1⟩, d0, h0, e0⟩, hdollar⟩, hmin⟩, hmax⟩, hc⟩
    rw [hc] at hmin hmax
    rw [digits_value h1 h0 e1 e0] at hc
    exact ⟨⟨d1, d0, h1, h0, e1, e0, hc.symm⟩, hdollar, hmin, hmax⟩
  · rintro ⟨⟨d1, d0, h1, h0, e1, e0, rfl⟩, hdollar, hmin, hmax⟩
    rw [digits_value h1 h0 e1 e0]
    exact ⟨⟨⟨⟨⟨⟨d1, h1, e1⟩, d0, h0, e0⟩, hdollar⟩, hmin⟩, hmax⟩, rfl⟩

/-! ### The record parser (R180 to R185) -/

theorem parseMinor_eq_some_iff (t : List Byte) (m : Bool) (p : Nat) :
    parseMinor t = some (m, p) ↔
      (textAt t 2 = dollar ∧ m = false ∧ p = 6) ∨
        (textAt t 2 = minorChar ∧ textAt t 3 = dollar ∧ m = true ∧ p = 7) := by
  constructor
  · intro h
    rcases parseMinor_some h with ⟨hm, hp, h2⟩ | ⟨hm, hp, h2, h3⟩
    · exact .inl ⟨h2, hm, hp⟩
    · exact .inr ⟨h2, h3, hm, hp⟩
  · rintro (⟨h2, rfl, rfl⟩ | ⟨h2, h3, rfl, rfl⟩)
    · rw [parseMinor, if_pos h2]
    · rw [parseMinor, if_neg (by rw [h2]; decide), if_pos ⟨h2, h3⟩]

/-- `parseRecord_some` says all that a parse checks. -/
theorem parseRecord_eq_some_iff (t : List Byte) (tail : Nat) (x : Parsed) :
    parseRecord t tail = some x ↔
      textAt t 0 = dollar ∧ (textAt t 1).toNat ≤ Config.version.toNat ∧
        parseMinor t = some (x.minor, x.saltAt) ∧ parseCost t x.saltAt = some x.cost ∧
        t.length = x.saltAt + tail ∧ dec btbl ((t.drop x.saltAt).take Config.saltSyms) = some x.salt := by
  refine ⟨parseRecord_some, ?_⟩
  rintro ⟨hlead, hversion, hminor, hcost, hlength, hsalt⟩
  rw [parseRecord, if_neg (by rw [not_or, not_not, not_lt]; exact ⟨hlead, hversion⟩)]
  simp only [hminor, hcost, hlength, hsalt, ne_eq, not_true, if_false]

/-- Settles O32: the parser's checks one by one, those of the minor flag and of the cost read off by the text. -/
theorem parseRecordExactly : Obligations.ParseRecordExactly := by
  intro t tail x
  rw [parseRecord_eq_some_iff, parseMinor_eq_some_iff, parseCost_eq_some_iff]
  simp only [and_assoc]
  exact Iff.rfl

/-- A text without 0x00 is scanned to its end under the salt table, which has no pad symbol (R144, R146). -/
theorem scannedLength_btbl {t : List Byte} (h : (0 : Byte) ∉ t) : scannedLength btbl t t.length := by
  refine ⟨Nat.le_refl _, fun j hj hpad => h ?_, .inl rfl⟩
  rw [padOf_btbl, textAt, List.getD_eq_getElem t 0 hj] at hpad
  exact hpad ▸ List.getElem_mem hj

/-- Settles O33: the salt is decoded from 22 scanned symbols. -/
theorem parsedSaltHasSixteenBytes : Obligations.ParsedSaltHasSixteenBytes := by
  intro t tail x htail hzero h
  obtain ⟨-, -, -, -, hlength, hsalt⟩ := parseRecord_some h
  have hzero' : (0 : Byte) ∉ (t.drop x.saltAt).take Config.saltSyms := fun hmem =>
    hzero (List.mem_of_mem_drop (List.mem_of_mem_take hmem))
  have hsyms : ((t.drop x.saltAt).take Config.saltSyms).length = 22 := by
    rw [List.length_take, List.length_drop, Config.saltSyms_val]
    omega
  have hdecoded := decodedLength _ _ _ _ (scannedLength_btbl hzero') hsalt
  rw [hsyms] at hdecoded
  exact hdecoded

/-! ### The salt record (R175) -/

theorem costDigits_eq (c : Nat) :
    costDigits c = [BitVec.ofNat 8 (0x30 + c / 10), BitVec.ofNat 8 (0x30 + c % 10)] := by
  rw [BitVec.ofNat_add, BitVec.ofNat_add]
  rfl

theorem saltRecord_eq (c : Nat) (x : Salt) :
    saltRecord c x =
      [0x24, 0x32, 0x24, BitVec.ofNat 8 (0x30 + c / 10), BitVec.ofNat 8 (0x30 + c % 10), 0x24]
        ++ enc btbl x.toList := by
  rw [saltRecord, costDigits_eq]
  rfl

theorem tableWF_btbl : tableWF btbl = true := by decide +kernel

/-- Settles O34: the salt record has the grammar, field by field, and its salt field is an encoded text. -/
theorem saltRecordParses : Obligations.SaltRecordParses := by
  intro c x hmin hmax
  have hsalt : ((saltRecord c x).drop 6).take 22 = enc btbl x.toList := by
    rw [saltRecord_eq]
    exact List.take_of_length_le (enc_salt_length x).le
  refine (parseRecordExactly _ _ _).2 ⟨rfl, Nat.le_refl _, .inl ⟨rfl, rfl, rfl⟩, ?_, ?_, hmin, hmax, ?_, ?_⟩
  · exact ⟨c / 10, c % 10, by omega, by omega, by rw [saltRecord_eq]; rfl, by rw [saltRecord_eq]; rfl,
      (Nat.div_add_mod c 10).symm⟩
  · rfl
  · exact saltRecord_length c x
  · rw [hsalt, dec_enc tableWF_btbl]

/-! ### The hash core (R191 to R194) -/

theorem encryptRounds_eq_iterate {σ : Type} (C : Cipher σ) (st : σ) (n : Nat) (ct : Block24) :
    encryptRounds C st n ct = (fun b => C.encryptBlockChain st b 24)^[n] ct := by
  induction n generalizing ct with
  | zero => rfl
  | succ n ih => exact ih _

theorem keySchedule_eq {σ : Type} (C : Cipher σ) (pw salt : List Byte) (minor : Bool) (cost : Nat) :
    keySchedule C (keyMaterial pw minor) salt cost =
      if minor then C.expensiveKeySchedule C.s0 salt 16 (pw ++ [0]) (pw.length + 1) (2 ^ cost)
      else C.expensiveKeySchedule C.s0 salt 16 pw pw.length (2 ^ cost) := by
  cases minor with
  | false => rfl
  | true => rw [keySchedule, keyMaterial, if_pos rfl, if_pos rfl, List.length_append]; rfl

/-- Settles O35: the rounds are an iteration under the one state of the key schedule. -/
theorem hashCoreProcedure : Obligations.HashCoreProcedure := by
  intro σ C pw salt minor cost
  rw [hashCore, keySchedule_eq, encryptRounds_eq_iterate]
  rfl

/-- Settles O36: 23 bytes are seven full groups and a partial one of three symbols. -/
theorem digestHasThirtyOneSymbols : Obligations.DigestHasThirtyOneSymbols := by
  intro σ C pw salt minor cost
  rw [hashCore, enc_length_unpadded padOf_btbl, List.length_take, Vector.length_toList]
  rfl

/-! ### The hash record (R195) -/

/-- Symbols after a text do not bear on what stands before them. -/
theorem textAt_append {t : List Byte} {i : Nat} (h : i < t.length) (d : List Byte) :
    textAt (t ++ d) i = textAt t i := List.getD_append t d 0 i h

/-- A salt record that parses still parses, with the same fields, when symbols follow it. -/
theorem parseRecord_append {t : List Byte} {x : Parsed} (h : parseRecord t 22 = some x) (d : List Byte) :
    parseRecord (t ++ d) (22 + d.length) = some x := by
  obtain ⟨hlead, hversion, hminor, hcost, hdollar, hmin, hmax, hlength, hsalt⟩ := (parseRecordExactly t 22 x).1 h
  have hP : x.saltAt ≤ 7 := parseRecord_saltAt_le h
  have hat : ∀ i < 22, textAt (t ++ d) i = textAt t i := fun i hi => textAt_append (by omega) d
  refine (parseRecordExactly _ _ x).2 ?_
  rw [hat 0 (by omega), hat 1 (by omega), hat 2 (by omega), hat 3 (by omega), hat _ (by omega), hat _ (by omega),
    hat _ (by omega), List.length_append, hlength, List.drop_append_of_le_length (by omega),
    List.take_append_of_le_length (by rw [List.length_drop]; omega)]
  exact ⟨hlead, hversion, hminor, hcost, hdollar, hmin, hmax, Nat.add_assoc _ _ _, hsalt⟩

/-- The hash record of a salt record that parses: the text, then the digest. -/
theorem hashRecord_eq {σ : Type} (C : Cipher σ) (pw : List Byte) {t : List Byte} {x : Parsed}
    (h : parseRecord t 22 = some x) : hashRecord C pw t x = t ++ hashCore C pw x.minor x.cost x.salt := by
  obtain ⟨-, -, -, -, hlength, -⟩ := parseRecord_some h
  rw [hashRecord, Config.saltSyms_val, List.take_of_length_le hlength.le]

end Sys2Proof.Machine

/-! PROOFS. GENSALT, HASH and VERIFY: the checks, the record written back, VERIFY after HASH, and the frame. -/

namespace Sys2Proof.Machine

/-! ### The write-back of a record (R176, R195) -/

/-- A record that fits ROUT ends the command with its length, and ROUT holds it, then zeros. -/
theorem State.accepted.writeRecord_ended {s : State} (hs : s.accepted) {record : List Byte}
    (hle : record.length ≤ 64) :
    (writeRecord record s.callOver).ended .ok record.length false ∧
      (writeRecord record s.callOver).readBytes 0x100 64 = record ++ List.replicate (64 - record.length) 0 :=
  ⟨State.complete_ended hs.noMatch (Nat.le_trans hle (by decide)),
    (State.readBytes_complete _ _ _ _).trans (State.readBytes_storeResult (b := .rout) s.callOver hle)⟩

/-- The bytes of ROUT that OLEN counts are the record. -/
theorem readBytes_writeRecord {s : State} {record : List Byte} (hle : record.length ≤ 64) :
    (writeRecord record s).readBytes 0x100 record.length = record :=
  State.readBytes_eq_of_byteAt fun _ hj => State.byteAt_storeResult_inside (b := .rout) hle (by simp; omega)

/-! ### GENSALT -/

/-- Settles O29: GENSALT draws, and writes back the salt record of 28 symbols. -/
theorem genSaltCompletes : Obligations.GenSaltCompletes := by
  rintro s x _ hs hcost hdraw rfl
  have hlength := saltRecord_length (clampCost s.cost.toNat) x
  obtain ⟨hended, hrout⟩ := hs.writeRecord_ended (hlength.trans_le (by decide))
  rw [hlength] at hended
  refine ⟨_, execGenSalt_eq hcost, ?_⟩
  rw [hdraw]
  refine ⟨hended, rfl, enc_salt_length x, hrout.trans ?_⟩
  rw [hlength, saltRecord_eq]
  rfl

/-- Settles O30: the operand check fails before the draw. -/
theorem genSaltCostOutOfRange : Obligations.GenSaltCostOutOfRange := by
  intro s hs hcost
  have ho : ¬ s.costOk = true := by
    rw [State.costOk_iff]
    omega
  exact ⟨_, if_neg ho, hs.failWith_ended .rout .illegal, State.failWith_calls _ _ _⟩

/-- Settles O31: the halt leaves MATCH and OLEN as acceptance cleared them. -/
theorem genSaltHaltsWithoutSource : Obligations.GenSaltHaltsWithoutSource := by
  intro s hs hcost hdraw
  refine ⟨_, execGenSalt_eq hcost, ?_⟩
  rw [hdraw]
  exact ⟨rfl, rfl, hs.noCount, hs.noMatch⟩

/-! ### The checks of HASH and VERIFY (R186, R190, R200, R203) -/

section Checks
variable {σ : Type} (C : Cipher σ) (returns : Bool) {s : State}

theorem hashWith_illegal (ho : ¬ s.recordOperandsOk = true) :
    hashWith C returns s = .next (s.failWith .rout .illegal) := if_neg ho

theorem verifyWith_illegal (ho : ¬ s.recordOperandsOk = true) :
    verifyWith C returns s = .next (s.raiseError .illegal) := if_neg ho

theorem hashWith_malformed (ho : s.recordOperandsOk = true) (hp : parseRecord s.recordText 22 = none) :
    hashWith C returns s = .next (s.failWith .rout .format) := by
  rw [hashWith, if_pos ho, Config.saltSyms_val, hp]

theorem verifyWith_malformed (ho : s.recordOperandsOk = true) (hp : parseRecord s.recordText 53 = none) :
    verifyWith C returns s = .next (s.completeVerify false) := by
  rw [verifyWith, if_pos ho, Config.saltSyms_val, Config.digestSyms_val, hp]

end Checks

/-- Settles O37: neither ending of a record that does not parse names the cipher. -/
theorem malformedRecordCallsNoCipher : Obligations.MalformedRecordCallsNoCipher := by
  intro σ τ C D c d s
  by_cases ho : s.recordOperandsOk = true
  · exact ⟨fun hp => by rw [hashWith_malformed C c ho hp, hashWith_malformed D d ho hp],
      fun hp => by rw [verifyWith_malformed C c ho hp, verifyWith_malformed D d ho hp]⟩
  · exact ⟨fun _ => by rw [hashWith_illegal C c ho, hashWith_illegal D d ho],
      fun _ => by rw [verifyWith_illegal C c ho, verifyWith_illegal D d ho]⟩

/-- Settles O39: FormatError, no call counted. -/
theorem hashFormatError : Obligations.HashFormatError := by
  intro s hs hpwlen hrlen hp
  have ho : s.recordOperandsOk = true := (State.recordOperandsOk_iff s).2 ⟨hpwlen, hrlen⟩
  exact ⟨_, hashWith_malformed _ _ ho hp, hs.failWith_ended .rout .format, State.failWith_calls _ _ _⟩

/-- Settles O42: the operand check fails; VERIFY has no output buffer to make unspecified. -/
theorem recordOperandsOutOfRange : Obligations.RecordOperandsOutOfRange := by
  intro i s hs hi hout
  have ho : ¬ s.recordOperandsOk = true := by
    rw [State.recordOperandsOk_iff, Config.recordMax_val]
    omega
  rcases hi with rfl | rfl
  · exact ⟨_, hashWith_illegal _ _ ho, hs.failWith_ended .rout .illegal⟩
  · exact ⟨_, verifyWith_illegal _ _ ho, hs.raiseError_ended .illegal⟩

/-! ### HASH -/

/-- The record a HASH writes is P + 53 symbols (R195). -/
theorem hashRecord_length {σ : Type} (C : Cipher σ) (pw : List Byte) {t : List Byte} {x : Parsed}
    (h : parseRecord t 22 = some x) : (hashRecord C pw t x).length = x.saltAt + 53 := by
  obtain ⟨-, -, -, -, hlength, -⟩ := parseRecord_some h
  rw [hashRecord_eq C pw h, List.length_append, hlength, digestHasThirtyOneSymbols]

/-- Settles O38: HASH writes back the text followed by the digest. -/
theorem hashCompletes : Obligations.HashCompletes := by
  intro s x hs hpwlen hrlen hp hreturns
  have hlength := hashRecord_length Config.cipher s.password hp
  have hP := parseRecord_saltAt_le hp
  obtain ⟨hended, hrout⟩ := hs.writeRecord_ended (hlength.trans_le (by omega))
  rw [hlength] at hended
  refine ⟨_, ?_, hended, hrout.trans ?_⟩
  · rw [exec_hash, execHash, hreturns]
    exact hashWith_eq _ hpwlen hrlen hp
  · rw [hlength, hashRecord_eq _ _ hp, show 64 - (x.saltAt + 53) = 11 - x.saltAt by omega]
    rfl

/-! ### VERIFY -/

theorem digestsMatch_eq_decide (computed stored : List Byte) :
    digestsMatch computed stored = decide (computed = stored) := beq_eq_decide computed stored

/-- Settles O40: VERIFY compares the digest it computes with the stored one. -/
theorem verifyCompletes : Obligations.VerifyCompletes := by
  rintro s x _ hs hpwlen hrlen rfl hp hreturns
  refine ⟨_, ?_, State.completeVerify_ended _ s.callOver⟩
  rw [exec_verify, execVerify, hreturns, ← digestsMatch_eq_decide]
  exact verifyWith_eq _ hpwlen hrlen hp

/-- The stored digest of a hash record is what follows its salt record (R195, R201). -/
theorem storedDigest_append {t d : List Byte} {x : Parsed} (h : parseRecord t 22 = some x) (hd : d.length = 31) :
    storedDigest (t ++ d) x = d := by
  obtain ⟨-, -, -, -, hlength, -⟩ := parseRecord_some h
  rw [storedDigest, Config.saltSyms_val, ← hlength, List.drop_left, Config.digestSyms_val,
    List.take_of_length_le hd.le]

/-- A HASH that ends DONE with ERR = 0 has parsed a record and leaves the hash record in ROUT, counted by OLEN. -/
theorem exec_hash_ok {s t : State} (hs : s.accepted) (ht : exec .hash s = .next t) (hdone : t.seq = .done)
    (hok : t.err = .ok) :
    ∃ x, parseRecord s.recordText 22 = some x ∧
      t.readBytes 0x100 t.olen.toNat =
        s.recordText ++ hashCore Config.cipher s.password x.minor x.cost x.salt := by
  cases hashWith_end ht with
  | failed e he =>
    rw [State.failWith_err] at hok
    rcases he with rfl | rfl <;> cases hok
  | wrote x hp _ =>
    have hle := Nat.le_trans (hashRecord_length_le Config.cipher s.password s.recordText hp) (by decide : 61 ≤ 64)
    obtain ⟨hended, -⟩ := hs.writeRecord_ended hle
    exact ⟨x, hp, by rw [hended.olen, readBytes_writeRecord hle, hashRecord_eq _ _ hp]⟩
  | waits _ =>
    obtain ⟨hbusy, -⟩ := hs
    cases hbusy.symm.trans hdone

/-- Settles O44: VERIFY parses the record HASH wrote to the fields HASH parsed, so it computes the digest that
stands there. -/
theorem hashThenVerifyMatches : Obligations.HashThenVerifyMatches := by
  intro s t u hs ht hdone hok hu hreturns hpwlen hrlen hpw htext
  obtain ⟨x, hp, hrecord⟩ := exec_hash_ok hs ht hdone hok
  rw [hrecord] at htext
  have hdigest := digestHasThirtyOneSymbols _ Config.cipher s.password x.salt x.minor x.cost
  have hparsed := parseRecord_append hp (hashCore Config.cipher s.password x.minor x.cost x.salt)
  rw [hdigest] at hparsed
  obtain ⟨v, hv, hended⟩ := verifyCompletes u x _ hu hpwlen hrlen htext.symm hparsed hreturns
  rw [hpw, decide_eq_true] at hended
  · exact ⟨v, hv, hended⟩
  · exact (storedDigest_append hp hdigest).symm

/-! ### The frame (R176, R195, R204, R207) -/

theorem GenSaltEnd.sameOutside {s t : State} (h : GenSaltEnd s t) : s.sameOutside t := by
  cases h <;> exact ⟨rfl, rfl⟩

theorem GenSaltEnd.calls {s t : State} (h : GenSaltEnd s t) : t.calls = s.calls ∨ t.calls = s.calls + 1 := by
  cases h with
  | failed => exact .inl rfl
  | wrote _ _ => exact .inr rfl
  | halts _ => exact .inr rfl
  | waits _ => exact .inl rfl

theorem GenSaltEnd.matchFlag {s t : State} (h : GenSaltEnd s t) : t.matchFlag = s.matchFlag := by
  cases h <;> rfl

section Hash
variable {σ : Type} {C : Cipher σ} {returns : Bool} {s t : State}

theorem HashEnd.sameOutside (h : HashEnd C returns s t) : s.sameOutside t := by
  cases h <;> exact ⟨rfl, rfl⟩

theorem HashEnd.calls (h : HashEnd C returns s t) : t.calls = s.calls ∨ t.calls = s.calls + 1 := by
  cases h with
  | failed _ _ => exact .inl rfl
  | wrote _ _ _ => exact .inr rfl
  | waits _ => exact .inl rfl

theorem HashEnd.matchFlag (h : HashEnd C returns s t) : t.matchFlag = s.matchFlag := by
  cases h <;> rfl

theorem VerifyEnd.sameOutside (h : VerifyEnd returns s t) : s.sameOutside t := by
  cases h <;> exact ⟨rfl, rfl⟩

theorem VerifyEnd.calls (h : VerifyEnd returns s t) : t.calls = s.calls ∨ t.calls = s.calls + 1 := by
  cases h with
  | failed => exact .inl rfl
  | malformed => exact .inl rfl
  | compared _ _ => exact .inr rfl
  | waits _ => exact .inl rfl

end Hash

/-- Settles O43: each way one of the three commands ends, field by field. -/
theorem hashFrame : Obligations.HashFrame := by
  intro i s t hi h
  have hrout : ∀ {off}, ¬(0x100 ≤ off ∧ off < 0x100 + 64) → Buf.rout.has off = false :=
    (has_eq_false_iff .rout _).2
  rcases hi with rfl | rfl | rfl
  · have he := execGenSalt_end h
    exact ⟨he.sameOperands, he.sameOutside, fun _ hoff => he.byteAt_outside (hrout hoff), nofun, he.calls,
      fun _ => he.matchFlag⟩
  · have he := hashWith_end h
    exact ⟨he.sameOperands, he.sameOutside, fun _ hoff => he.byteAt_outside (hrout hoff), nofun, he.calls,
      fun _ => he.matchFlag⟩
  · have he := verifyWith_end h
    exact ⟨he.sameOperands, he.sameOutside, fun off _ => he.sameBytes off, fun _ => he.sameBytes, he.calls,
      fun hne => absurd rfl hne⟩

end Sys2Proof.Machine

/-! PROOFS. How commands end: the error codes of each command (R240 to R244), the frame of the codec commands, and
VERIFY on a record that does not parse (R255). -/

namespace Sys2Proof.Machine

/-! ### ENCODE reports no FormatError (R240) -/

theorem encodeWith_err_ne_format {T : Table} {s t : State} (h : encodeWith T s = .next t) : t.err ≠ .format := by
  by_cases hcap : s.ocap.toNat < encLenPadded s.ilen.toNat
  · rw [encodeWith_of_lt hcap] at h
    cases h
    nofun
  · rw [encodeWith_of_le (Nat.not_lt.1 hcap)] at h
    cases h
    nofun

theorem exec_encode_err_ne_format {i : Instr} {s t : State} (hi : i = .encodeD ∨ i = .encodeA)
    (h : exec i s = .next t) : t.err ≠ .format := by
  by_cases ho : s.codecOperandsOk = true
  · rcases hi with rfl | rfl
    · rw [exec_encodeD, execEncodeD, if_pos ho] at h
      exact encodeWith_err_ne_format h
    · rw [exec_encodeA, execEncodeA, if_pos ho] at h
      split at h
      · exact encodeWith_err_ne_format h
      · cases h
  · rw [execCodec_illegal (by tauto) (Bool.eq_false_iff.2 ho)] at h
    cases h
    nofun

/-! ### The codes of each way to end (R240) -/

theorem CodecEnd.err_mem {s t : State} (h : CodecEnd s t) : t.err ∈ [Err.ok, .capacity, .format, .illegal] := by
  cases h with
  | failed e he =>
    rw [State.failWith_err]
    rcases he with rfl | rfl | rfl <;> decide
  | succeeded bytes _ _ =>
    rw [State.complete_err]
    decide

theorem exec_encode_err_mem {i : Instr} {s t : State} (hi : i = .encodeD ∨ i = .encodeA)
    (h : exec i s = .next t) : t.err ∈ [Err.ok, .capacity, .illegal] := by
  have hmem := (execCodec_end (by tauto) h).err_mem
  have hne := exec_encode_err_ne_format hi h
  simp only [List.mem_cons, List.not_mem_nil, or_false] at hmem ⊢
  tauto

section Accepted
variable {s t : State} (hs : s.accepted)
include hs

theorem State.accepted.noError : s.err = .ok := hs.2.1

theorem GenSaltEnd.err_mem (h : GenSaltEnd s t) : t.err ∈ [Err.ok, .environment, .illegal] := by
  cases h with
  | failed => exact .tail _ (.tail _ (.head _))
  | wrote _ _ => exact .head _
  | halts _ => exact .tail _ (.head _)
  | waits _ => exact hs.noError ▸ .head _

theorem HashEnd.err_mem {σ : Type} {C : Cipher σ} {returns : Bool} (h : HashEnd C returns s t) :
    t.err ∈ [Err.ok, .format, .illegal] := by
  cases h with
  | failed e he =>
    rw [State.failWith_err]
    rcases he with rfl | rfl <;> decide
  | wrote _ _ _ => exact .head _
  | waits _ => exact hs.noError ▸ .head _

theorem VerifyEnd.err_mem {returns : Bool} (h : VerifyEnd returns s t) : t.err ∈ [Err.ok, .illegal] := by
  cases h with
  | failed => exact .tail _ (.head _)
  | malformed => exact .head _
  | compared _ _ => exact .head _
  | waits _ => exact hs.noError ▸ .head _

end Accepted

/-- Settles O9: the codes of each way a command can end, FormatError taken out for ENCODE. -/
theorem errorCodesOfCommands : Obligations.ErrorCodesOfCommands := by
  intro s t i hs h
  cases i with
  | encodeD => exact exec_encode_err_mem (.inl rfl) h
  | encodeA => exact exec_encode_err_mem (.inr rfl) h
  | decodeD => exact (execCodec_end (by decide) h).err_mem
  | decodeA => exact (execCodec_end (by decide) h).err_mem
  | genSalt => exact (execGenSalt_end h).err_mem hs
  | hash => exact (hashWith_end h).err_mem hs
  | verify => exact (verifyWith_end h).err_mem hs

/-! ### The frame of ENCODE and DECODE (R118, R152, R246) -/

namespace CodecEnd
variable {s t : State} (h : CodecEnd s t)
include h

theorem sameOutside : s.sameOutside t := by
  cases h <;> exact ⟨rfl, rfl⟩

theorem calls : t.calls = s.calls := by
  cases h <;> rfl

theorem matchFlag : t.matchFlag = s.matchFlag := by
  cases h <;> rfl

/-- A success changes no byte outside the area it stores its result to. -/
theorem sameBytesOutside_of_ok (hok : t.err = .ok) : s.sameBytesOutside 0x2000 s.ocap.toNat t := by
  cases h with
  | failed e he =>
    rw [State.failWith_err] at hok
    rcases he with rfl | rfl | rfl <;> cases hok
  | succeeded bytes hle _ => exact State.storeResult_sameBytesOutside (b := .obuf) hle

theorem olen_of_err_ne_ok (herr : t.err ≠ .ok) : t.olen = s.olen := by
  cases h with
  | failed e _ => exact State.failWith_olen _ _ _
  | succeeded bytes _ _ => exact absurd rfl herr

end CodecEnd

/-- Settles O27: each way a codec command ends, field by field. -/
theorem codecFrame : Obligations.CodecFrame := by
  intro i s t hi h
  have he := execCodec_end hi h
  refine ⟨he.sameOperands, he.sameOutside, he.calls, he.matchFlag, he.sameBytesOutside_of_ok, fun herr =>
    ⟨he.olen_of_err_ne_ok herr, fun off hoff => he.byteAt_outside ?_⟩⟩
  exact (has_eq_false_iff .obuf off).2 hoff

/-! ### VERIFY on a record that does not parse (R255) -/

/-- Settles O41: the FormatError of the parser completes VERIFY with no match. -/
theorem verifyMasksFormatError : Obligations.VerifyMasksFormatError := by
  intro s _ hpwlen hrlen hp
  have ho : s.recordOperandsOk = true := (State.recordOperandsOk_iff s).2 ⟨hpwlen, hrlen⟩
  exact ⟨_, verifyWith_malformed _ _ ho hp, State.completeVerify_ended false s⟩

end Sys2Proof.Machine

/-! PROOFS. The halt (R249): what a HALTED block lets the outside world do, and how a run ends there. -/

namespace Sys2Proof.Machine

/-- A host access of a HALTED block changes at most the value returned and the count of draws (R74). -/
theorem State.serve_halted {s t : State} {a : Action} (hs : s.seq = .halted) (ha : a ≠ .reset)
    (h : s.serve a = .next t) : ∃ v n, t = { s with readData := v, draws := n } := by
  cases a with
  | read addr width =>
    rcases State.hostRead_next h with ⟨r, -, rfl⟩ | ⟨off, -, rfl⟩
    · exact s.readReg_eq r
    · exact s.readByte_eq off
  | write addr width v =>
    have hclosed : s.hostOpen = false := by simp [State.hostOpen, hs]
    have hm : (∃ r, target addr width = .reg r) ∨ ∃ off, target addr width = .byte off :=
      (State.hostWrite_next h).imp (fun ⟨r, ht, _⟩ => ⟨r, ht⟩) fun ⟨off, ht, _⟩ => ⟨off, ht⟩
    obtain rfl : s = t := Host.Outcome.next.inj ((State.hostWrite_dropped hm hclosed v).symm.trans h)
    exact ⟨s.readData, s.draws, rfl⟩
  | reset => exact absurd rfl ha

/-- Settles O55: the block is on its own, and HALTED. -/
theorem haltedRunEndsInFault : Obligations.HaltedRunEndsInFault := by
  intro s hs hp
  rw [step, hp]
  simp only [State.blockAlone, hs]

/-- Settles O54: the step serves the first pending action, a reset or an access that R74 keeps from the block. -/
theorem onlyResetLeavesHalted : Obligations.OnlyResetLeavesHalted := by
  intro s t hs h
  cases hp : s.pending with
  | nil => cases (haltedRunEndsInFault s hs hp).symm.trans h
  | cons e rest =>
    obtain ⟨b, a⟩ := e
    by_cases ha : a = .reset
    · exact .inl ⟨b, rest, by rw [ha]⟩
    · rw [step_serves (by simp [hs]) hp] at h
      obtain ⟨v, n, rfl⟩ := State.serve_halted (s := { s with pending := rest }) hs ha h
      exact .inr ⟨hs, rfl, rfl, rfl, ⟨rfl, rfl, rfl, rfl, rfl, rfl⟩, rfl⟩

end Sys2Proof.Machine

/-! PROOFS. Reset (R270, R272) from any state, and when a command ends or waits for its capability (R290). -/

namespace Sys2Proof.Machine

/-! ### Reset -/

/-- The registers after a reset do not depend on the state it is taken in. -/
theorem State.regValue_applyReset (s : State) (r : Reg) : s.applyReset.regValue r = State.reset.regValue r := by
  cases r <;> rfl

/-- Settles O58: the reset is served, and leaves the registers of `State.reset`. -/
theorem resetFromAnyState : Obligations.ResetFromAnyState := by
  intro s b rest hb hp
  obtain ⟨-, -, hregs, -⟩ := resetValues
  exact ⟨_, step_serves_unheld hb hp, rfl, fun r => (State.regValue_applyReset _ r).trans (hregs r), rfl, rfl⟩

/-! ### A capability that never answers -/

section Silent
variable {σ : Type} (C : Cipher σ) {s : State} {x : Parsed} (ho : s.recordOperandsOk = true)
include ho

/-- HASH on a record that parses, its cipher calls not returning. -/
theorem hashWith_waits (hp : parseRecord s.recordText 22 = some x) : hashWith C false s = .next s := by
  rw [hashWith, if_pos ho, Config.saltSyms_val, hp]
  rfl

/-- VERIFY on a record that parses, its cipher calls not returning. -/
theorem verifyWith_waits (hp : parseRecord s.recordText 53 = some x) : verifyWith C false s = .next s := by
  rw [verifyWith, if_pos ho, Config.saltSyms_val, Config.digestSyms_val, hp]
  rfl

end Silent

/-- Settles O8: past its checks each of the three commands answers the state it was given. -/
theorem silentCapabilityKeepsBusy : Obligations.SilentCapabilityKeepsBusy := by
  intro s x
  refine ⟨fun hcost hdraw => ?_, fun hpwlen hrlen hsilent hp => ?_, fun hpwlen hrlen hsilent hp => ?_⟩
  · rw [execGenSalt_eq hcost, hdraw, genSaltAnswered]
  · rw [exec_hash, execHash, hsilent]
    exact hashWith_waits _ ((State.recordOperandsOk_iff s).2 ⟨hpwlen, hrlen⟩) hp
  · rw [exec_verify, execVerify, hsilent]
    exact verifyWith_waits _ ((State.recordOperandsOk_iff s).2 ⟨hpwlen, hrlen⟩) hp

/-! ### Every command answers a next state, given a usable table -/

theorem encodeWith_answers (T : Table) (s : State) : ∃ t, encodeWith T s = .next t := by
  by_cases hcap : s.ocap.toNat < encLenPadded s.ilen.toNat
  · exact ⟨_, encodeWith_of_lt hcap⟩
  · exact ⟨_, encodeWith_of_le (Nat.not_lt.1 hcap)⟩

theorem decodeWith_answers (T : Table) (s : State) : ∃ t, decodeWith T s = .next t := by
  cases hd : dec T s.inputText with
  | none => exact ⟨_, decodeWith_of_none hd⟩
  | some d =>
    by_cases hcap : s.ocap.toNat < d.length
    · exact ⟨_, decodeWith_of_lt hd hcap⟩
    · exact ⟨_, decodeWith_of_le hd (Nat.not_lt.1 hcap)⟩

theorem hashWith_answers {σ : Type} (C : Cipher σ) (returns : Bool) (s : State) :
    ∃ t, hashWith C returns s = .next t := by
  unfold hashWith
  split
  · split <;> exact ⟨_, rfl⟩
  · exact ⟨_, rfl⟩

theorem verifyWith_answers {σ : Type} (C : Cipher σ) (returns : Bool) (s : State) :
    ∃ t, verifyWith C returns s = .next t := by
  unfold verifyWith
  split
  · split <;> exact ⟨_, rfl⟩
  · exact ⟨_, rfl⟩

theorem execGenSalt_answers (s : State) : ∃ t, execGenSalt s = .next t := by
  unfold execGenSalt
  split <;> exact ⟨_, rfl⟩

/-- Only an unusable TBL keeps a codec command from answering a next state (R34). -/
theorem execCodec_answers {i : Instr} {s : State}
    (hi : i = .encodeD ∨ i = .encodeA ∨ i = .decodeD ∨ i = .decodeA)
    (htbl : (i = .encodeA ∨ i = .decodeA) → s.hostTableUsable = true) : ∃ t, exec i s = .next t := by
  by_cases ho : s.codecOperandsOk = true
  · obtain ⟨hilen, hocap⟩ := (State.codecOperandsOk_iff s).1 ho
    rcases hi with rfl | rfl | rfl | rfl
    · rw [exec_encode (.inl ⟨rfl, rfl⟩) hilen hocap]
      exact encodeWith_answers _ s
    · rw [exec_encode (.inr ⟨rfl, htbl (.inl rfl), rfl⟩) hilen hocap]
      exact encodeWith_answers _ s
    · rw [exec_decode (.inl ⟨rfl, rfl⟩) hilen hocap]
      exact decodeWith_answers _ s
    · rw [exec_decode (.inr ⟨rfl, htbl (.inr rfl), rfl⟩) hilen hocap]
      exact decodeWith_answers _ s
  · exact ⟨_, execCodec_illegal hi (Bool.eq_false_iff.2 ho)⟩

/-- Only an unusable TBL keeps a command from answering a next state (R34). -/
theorem exec_answers {i : Instr} {s : State}
    (htbl : (i = .encodeA ∨ i = .decodeA) → s.hostTableUsable = true) : ∃ t, exec i s = .next t := by
  cases i with
  | encodeD => exact execCodec_answers (by decide) htbl
  | encodeA => exact execCodec_answers (by decide) htbl
  | decodeD => exact execCodec_answers (by decide) htbl
  | decodeA => exact execCodec_answers (by decide) htbl
  | genSalt => exact execGenSalt_answers s
  | hash => exact hashWith_answers _ _ s
  | verify => exact verifyWith_answers _ _ s

/-! ### A command that does not wait leaves the block DONE, or HALTED -/

theorem CodecEnd.seq_done {s t : State} (h : CodecEnd s t) : t.seq = .done := by
  cases h <;> rfl

theorem GenSaltEnd.seq_of_answered {s t : State} (h : GenSaltEnd s t) (hdraw : s.drawAnswer ≠ .never) :
    t.seq = .done ∨ (t.seq = .halted ∧ s.drawAnswer = .unavailable) := by
  cases h with
  | failed => exact .inl rfl
  | wrote _ _ => exact .inl rfl
  | halts hunavailable => exact .inr ⟨rfl, hunavailable⟩
  | waits hnever => exact absurd hnever hdraw

theorem HashEnd.seq_done {σ : Type} {C : Cipher σ} {s t : State} (h : HashEnd C true s t) : t.seq = .done := by
  cases h with
  | failed _ _ => rfl
  | wrote _ _ _ => rfl
  | waits hsilent => cases hsilent

theorem VerifyEnd.seq_done {s t : State} (h : VerifyEnd true s t) : t.seq = .done := by
  cases h with
  | failed => rfl
  | malformed => rfl
  | compared _ _ => rfl
  | waits hsilent => cases hsilent

/-- A word that names a command runs it (R90). -/
theorem State.runCommand_of_decode {s : State} {i : Instr} (h : decode s.cmd = .ok i) :
    s.runCommand = exec i s := by
  rw [State.runCommand, h]

/-- Settles O7: the step is the command's `exec`, which answers a next state, and with its capability answering
the command does not end in the wait. -/
theorem acceptedCommandEnds : Obligations.AcceptedCommandEnds := by
  intro s i hs hnext hc hdraw hreturns htbl
  obtain ⟨t, ht⟩ := exec_answers htbl
  refine ⟨t, by rw [step_runsCommand hs hnext, State.runCommand_of_decode hc, ht], ?_⟩
  rcases exec_end ht with he | ⟨rfl, he⟩ | ⟨rfl, he⟩ | ⟨rfl, he⟩
  · exact .inl he.seq_done
  · exact (he.seq_of_answered (hdraw rfl)).imp_right fun ⟨hhalted, hunavailable⟩ => ⟨hhalted, rfl, hunavailable⟩
  · rw [hreturns (.inl rfl)] at he
    exact .inl he.seq_done
  · rw [hreturns (.inr rfl)] at he
    exact .inl he.seq_done

end Sys2Proof.Machine

/-! PROOFS. The decoder on whole words and on bytes, a CMD write that is accepted, the step that runs the command, and
the invariant after reset. -/

namespace Sys2Proof.Machine

/-! ### Decoding (R63, R91, R95) -/

/-- Settles O2: the opcode map read from the word's fields, which determine the word. -/
theorem decodeInvertsEncode : Obligations.DecodeInvertsEncode := decode_eq_ok_iff

theorem decode_encode (i : Instr) : decode (encode i) = .ok i := (decode_eq_ok_iff _ i).2 rfl

/-- Settles O1: each word of the map is the word of its command. -/
theorem opcodeMapDecodes : Obligations.OpcodeMapDecodes :=
  ⟨decode_encode .encodeD, decode_encode .encodeA, decode_encode .decodeD, decode_encode .decodeA,
    decode_encode .genSalt, decode_encode .hash, decode_encode .verify⟩

/-- Adjacent bytes of a word, joined from the highest down, are the word (R63 (c)). -/
theorem wordOfBytes_extractLsb' (w : Word) :
    wordOfBytes (w.extractLsb' 0 8) (w.extractLsb' 8 8) (w.extractLsb' 16 8) (w.extractLsb' 24 8) = w := by
  rw [wordOfBytes, BitVec.extractLsb'_append_extractLsb'_eq_extractLsb' (show 24 = 16 + 8 from rfl),
    BitVec.extractLsb'_append_extractLsb'_eq_extractLsb' (show 16 = 8 + 8 from rfl),
    BitVec.extractLsb'_append_extractLsb'_eq_extractLsb' (show 8 = 0 + 8 from rfl), BitVec.extractLsb'_eq_self]

/-- Settles O3: the four bytes of a word form that word again. -/
theorem byteOrderOfCommandWords : Obligations.ByteOrderOfCommandWords := by
  intro w
  rw [bytesOfWord, decodeBytes, wordOfBytes_extractLsb']

/-! ### Accepting and running a command (R24, R90) -/

/-- Settles O4: a CMD write of a block that is IDLE or DONE is the store to CMD, which accepts the word. -/
theorem cmdWriteIsAccepted : Obligations.CmdWriteIsAccepted :=
  fun _ _ _ _ hs hp => step_storeReg (r := .cmd) hs hp

/-- A BUSY block whose first pending action waits runs the command its word names (R24). -/
theorem step_of_decode {s : State} {i : Instr} (hs : s.seq = .busy) (hnext : s.commandNext)
    (hc : decode s.cmd = .ok i) : step s = exec i s := by
  rw [step_runsCommand hs hnext, State.runCommand_of_decode hc]

theorem State.tableWord_toNat (w : Word) : State.tableWord 32 w.toNat = w := by
  rw [State.tableWord, Nat.mod_eq_of_lt w.isLt, BitVec.ofNat_toNat, BitVec.setWidth_eq]

/-- Placing a command makes the first pending action, if any, wait for its end. -/
theorem State.placeCommand_commandNext (w : Word) (s : State) : (s.placeCommand w).commandNext := by
  cases hp : s.pending with
  | nil => exact .inl (by rw [placeCommand_pending, hp, deferFirst])
  | cons e rest => exact .inr ⟨_, rest, by rw [placeCommand_pending, hp, deferFirst], rfl⟩

/-- Settles O5: the block runs the command CMD decodes to; `withFetchWord` places a command's word, BUSY, with
nothing before it. -/
theorem stepRunsDecodedCommand : Obligations.StepRunsDecodedCommand := by
  refine ⟨fun _ _ => step_of_decode, fun s i => ?_⟩
  rw [State.withFetchWord, State.tableWord_toNat]
  exact step_of_decode rfl (s.placeCommand_commandNext _) (decode_encode i)

/-! ### Reset (R38) -/

/-- Settles O59: the state after reset has the results and the memory that a reset taken in any state leaves. -/
theorem resetHasInvariant : Obligations.ResetHasInvariant :=
  (State.applyReset_inv State.reset).of_sameResults Memory.wf_nil rfl ⟨rfl, rfl, rfl, rfl⟩

end Sys2Proof.Machine
